-- ==== Sys2Proof/Word.lean ====
section
/-! DEFINITION. The widths of the machine: bytes, halfwords, words and 5-bit register numbers (00_scope.md R6, 30_encoding.md R51). -/

namespace Sys2Proof

/-- A word: 32 bits, bit 0 the least significant (R6). -/
abbrev Word := BitVec 32

/-- A halfword: 16 bits (R6); also the width of `imm16` (R51). -/
abbrev Half := BitVec 16

/-- A byte: 8 bits (R6). -/
abbrev Byte := BitVec 8

/-- The 5-bit field that selects one of 32 registers (R10, R55), or a CP0 register number (R55). -/
abbrev RegNo := BitVec 5

end Sys2Proof
end

