-- ==== Sys2Proof/Config.lean ====
section
/-! DEFINITION. The parameters the spec leaves open (00_scope.md R4, R5), and the one value it leaves free (40_muldiv.md R73). -/

namespace Sys2Proof

/-- A range of byte addresses, `base` to `base + size - 1`. -/
structure Region where
  base : Nat
  size : Nat
deriving DecidableEq, Repr

/-- The address lies in the range. -/
def Region.holds (r : Region) (a : Nat) : Bool :=
  decide (r.base ≤ a) && decide (a < r.base + r.size)

/-- The open parameters of the step relation (R4, R5; 10_state.md section 7). They are fixed for a run; the state
carries them (log 1), no step changes them, and a statement about every state is a statement about every value
of them. -/
structure Config where
  /-- `BigEndianCPU` (R32): the byte order of data and of fetch. -/
  bigEndian : Bool
  /-- `DELAY_SLOTS` (R5, R104): whether BGEZ and JALR have a delay slot. -/
  delaySlots : Bool
  /-- `EXC_VECTOR` (R145): where control goes on any exception. -/
  excVector : Word
  /-- `RESET_PC` (R27): the value of `pc` after reset. -/
  resetPc : Word
  /-- `HALT_PC` (R180), or absent: where an observer says that the run has ended. -/
  haltPc : Option Word
  /-- `CodeRegion` of `MemMap` (R39), as the union of ranges. -/
  codeRegion : List Region
  /-- `DataRegion` of `MemMap` (R39), as the union of ranges. -/
  dataRegion : List Region
deriving DecidableEq, Repr

/-- The address is in `CodeRegion` (R39). -/
def Config.inCode (c : Config) (a : Nat) : Bool :=
  c.codeRegion.any fun r => r.holds a

/-- The address is in `DataRegion` (R39). -/
def Config.inData (c : Config) (a : Nat) : Bool :=
  c.dataRegion.any fun r => r.holds a

/-- The parameter values of `State.reset`. DESIGN CHOICE, unsafe where a claim rests on one (log 2): byte order and delay slots are the spec's defaults
(D6, D4), `EXC_VECTOR` and `RESET_PC` those of the examples in 95_test_vectors.md, no `HALT_PC`; the two regions together are the whole
32-bit space, code being the surroundings of those two addresses. -/
def Config.atReset : Config where
  bigEndian := false
  delaySlots := true
  excVector := 0x80000180
  resetPc := 0x00400000
  haltPc := none
  codeRegion := [⟨0x00400000, 0x0FC00000⟩, ⟨0x80000000, 0x00100000⟩]
  dataRegion := [⟨0x00000000, 0x00400000⟩, ⟨0x10000000, 0x70000000⟩, ⟨0x80100000, 0x7FF00000⟩]

/-- `DivByZero` (R5, R73): the pair `(HI, LO)` that DIV or DIVU leaves when the divisor is zero. A FREE VALUE (log 6):
it has no body, so nothing can be proved about it. The first argument is the state's count of draws so far, which makes every draw
a fresh one; the others are the arguments the spec gives the draw, `x[rs]` and whether the division is signed. -/
opaque Config.divByZero : Nat → Word → Bool → Word × Word

end Sys2Proof
end

