-- ==== Sys2Proof/Syntax.lean ====
section
/-! DEFINITION. The syntax of the 23 instructions (00_scope.md R1), one constructor for each row of the opcode table (30_encoding.md R58). -/

namespace Sys2Proof

/-- The 23 instructions, in the table's order (R53, R58), with the operand fields that each row's format names (R52, R55, R65).
Bits the decoder ignores (R56, R60) are no part of an instruction. -/
inductive Instr where
  /-- `DIV rs, rt` (R74). -/
  | div (rs rt : RegNo)
  /-- `DIVU rs, rt` (R75). -/
  | divu (rs rt : RegNo)
  /-- `MULT rs, rt` (R70). -/
  | mult (rs rt : RegNo)
  /-- `MULTU rs, rt` (R71). -/
  | multu (rs rt : RegNo)
  /-- `BGEZ rs, offset` (R100). -/
  | bgez (rs : RegNo) (imm16 : Half)
  /-- `JALR rd, rs` (R102). -/
  | jalr (rd rs : RegNo)
  /-- `LBU rt, offset(base)` (R91). -/
  | lbu (rt base : RegNo) (imm16 : Half)
  /-- `LHU rt, offset(base)` (R93). -/
  | lhu (rt base : RegNo) (imm16 : Half)
  /-- `LB rt, offset(base)` (R90). -/
  | lb (rt base : RegNo) (imm16 : Half)
  /-- `LH rt, offset(base)` (R92). -/
  | lh (rt base : RegNo) (imm16 : Half)
  /-- `SB rt, offset(base)` (R94). -/
  | sb (rt base : RegNo) (imm16 : Half)
  /-- `SH rt, offset(base)` (R95). -/
  | sh (rt base : RegNo) (imm16 : Half)
  /-- `BREAK` (R110). -/
  | brk
  /-- `SYSCALL` (R111). -/
  | syscall
  /-- `ERET` (R120). -/
  | eret
  /-- `MFHI rd` (R83). -/
  | mfhi (rd : RegNo)
  /-- `MFLO rd` (R80). -/
  | mflo (rd : RegNo)
  /-- `MTHI rs` (R81). -/
  | mthi (rs : RegNo)
  /-- `MTLO rs` (R82). -/
  | mtlo (rs : RegNo)
  /-- `MFC0 rt, rd`: `rt` a general register, `rd` a CP0 register number (R124). -/
  | mfc0 (rt rd : RegNo)
  /-- `MTC0 rt, rd`: `rt` a general register, `rd` a CP0 register number (R126). -/
  | mtc0 (rt rd : RegNo)
  /-- `CLZ rd, rs` (R130). -/
  | clz (rd rs : RegNo)
  /-- `TEQ rs, rt` (R112). -/
  | teq (rs rt : RegNo)
deriving DecidableEq, Repr

end Sys2Proof
end

