-- ==== Sys2Proof/WellFormed.lean ====
section
/-! DEFINITION. Well-formed instructions and well-formed parameters. The field widths of an instruction are its types' (Syntax.lean), and no
combination of field values is reserved or a hint (30_encoding.md R63); what is left to check is that a CP0 operand names a register that
exists, and that the open parameters have the types 00_scope.md R5 gives them. -/

namespace Sys2Proof

/-- The CP0 register numbers that name a register: Status, Cause, EPC, ErrorEPC (R18, R124, R126). -/
def cp0Numbers : List RegNo := [12, 13, 14, 30]

/-- Every operand names state that exists: `rd` of MFC0 and MTC0 is one of the four CP0 registers (R18). Any other number decodes and is
refused when it is executed (R124, R126). -/
def Instr.wf : Instr → Bool
  | .mfc0 _ rd => cp0Numbers.contains rd
  | .mtc0 _ rd => cp0Numbers.contains rd
  | .div _ _ | .divu _ _ | .mult _ _ | .multu _ _ | .bgez _ _ | .jalr _ _ => true
  | .lbu _ _ _ | .lhu _ _ _ | .lb _ _ _ | .lh _ _ _ | .sb _ _ _ | .sh _ _ _ => true
  | .brk | .syscall | .eret | .mfhi _ | .mflo _ | .mthi _ | .mtlo _ | .clz _ _ | .teq _ _ => true

/-- A multiple of 4 (R5: the type of `EXC_VECTOR`, `RESET_PC` and `HALT_PC`; R17: what a fetch needs). -/
def Word.aligned (w : Word) : Bool := w.toNat % 4 == 0

/-- The range lies in the 32-bit address space (R30). -/
def Region.wf (r : Region) : Bool := decide (r.base + r.size ≤ 2 ^ 32)

/-- The parameters have the types of R5: word-aligned addresses, and regions inside the address space. -/
def Config.wf (c : Config) : Bool :=
  Word.aligned c.excVector && Word.aligned c.resetPc && c.haltPc.all Word.aligned
    && c.codeRegion.all Region.wf && c.dataRegion.all Region.wf

end Sys2Proof
end

