-- ==== Sys2Proof/Decode.lean ====
section
/-! DEFINITION. Byte order, the decoder (30_encoding.md R58, R61, R62) and, after it, the encoder, written from the bit patterns of the same rule. -/

namespace Sys2Proof

/-! ### Byte order (20_memory.md R33, R34) -/

/-- `{hi, lo}`: `hi` in bits 15..8, `lo` in bits 7..0. -/
def halfOf (hi lo : Byte) : Half := hi.setWidth 16 <<< 8 ||| lo.setWidth 16

/-- `{b3, b2, b1, b0}`: `b3` in bits 31..24, down to `b0` in bits 7..0. -/
def wordOf (b3 b2 b1 b0 : Byte) : Word :=
  b3.setWidth 32 <<< 24 ||| b2.setWidth 32 <<< 16 ||| b1.setWidth 32 <<< 8 ||| b0.setWidth 32

/-- The halfword whose byte at the lower address is `b0` (R33, n = 2). -/
def joinHalf (big : Bool) (b0 b1 : Byte) : Half :=
  if big then halfOf b0 b1 else halfOf b1 b0

/-- The word whose bytes, lowest address first, are `b0 b1 b2 b3` (R33, n = 4). -/
def joinWord (big : Bool) (b0 b1 b2 b3 : Byte) : Word :=
  if big then wordOf b0 b1 b2 b3 else wordOf b3 b2 b1 b0

/-- Byte `i` of a value, byte 0 the least significant. -/
def byteOf {w : Nat} (v : BitVec w) (i : Nat) : Byte := v.extractLsb' (8 * i) 8

/-- The bytes of a halfword, lowest address first (R34, n = 2). -/
def splitHalf (big : Bool) (h : Half) : List Byte :=
  if big then [byteOf h 1, byteOf h 0] else [byteOf h 0, byteOf h 1]

/-- The bytes of a word, lowest address first (R36). -/
def splitWord (big : Bool) (w : Word) : List Byte :=
  if big then [byteOf w 3, byteOf w 2, byteOf w 1, byteOf w 0] else [byteOf w 0, byteOf w 1, byteOf w 2, byteOf w 3]

/-! ### Fields (R51) -/

/-- `rs = w[25:21]`, also `base`. -/
def rsField (w : Word) : RegNo := w.extractLsb' 21 5

/-- `rt = w[20:16]`. -/
def rtField (w : Word) : RegNo := w.extractLsb' 16 5

/-- `rd = w[15:11]`. -/
def rdField (w : Word) : RegNo := w.extractLsb' 11 5

/-- `imm16 = w[15:0]`. -/
def immField (w : Word) : Half := w.extractLsb' 0 16

/-! ### The opcode table (R58) -/

/-- One row of R58: a word is the row's instruction iff `w & mask = pattern`; `build` takes its fields (R61). -/
structure Row where
  mnemonic : String
  pattern : Word
  mask : Word
  build : Word → Instr

/-- The word matches the row. -/
def Row.fits (r : Row) (w : Word) : Bool := w &&& r.mask == r.pattern

/-- The rows of R58, in the table's order. -/
def rows : List Row := [
  ⟨"DIV", 0x0000001A, 0xFC00FFFF, fun w => .div (rsField w) (rtField w)⟩,
  ⟨"DIVU", 0x0000001B, 0xFC00FFFF, fun w => .divu (rsField w) (rtField w)⟩,
  ⟨"MULT", 0x00000018, 0xFC00FFFF, fun w => .mult (rsField w) (rtField w)⟩,
  ⟨"MULTU", 0x00000019, 0xFC00FFFF, fun w => .multu (rsField w) (rtField w)⟩,
  ⟨"BGEZ", 0x04010000, 0xFC1F0000, fun w => .bgez (rsField w) (immField w)⟩,
  ⟨"JALR", 0x00000009, 0xFC1F07FF, fun w => .jalr (rdField w) (rsField w)⟩,
  ⟨"LBU", 0x90000000, 0xFC000000, fun w => .lbu (rtField w) (rsField w) (immField w)⟩,
  ⟨"LHU", 0x94000000, 0xFC000000, fun w => .lhu (rtField w) (rsField w) (immField w)⟩,
  ⟨"LB", 0x80000000, 0xFC000000, fun w => .lb (rtField w) (rsField w) (immField w)⟩,
  ⟨"LH", 0x84000000, 0xFC000000, fun w => .lh (rtField w) (rsField w) (immField w)⟩,
  ⟨"SB", 0xA0000000, 0xFC000000, fun w => .sb (rtField w) (rsField w) (immField w)⟩,
  ⟨"SH", 0xA4000000, 0xFC000000, fun w => .sh (rtField w) (rsField w) (immField w)⟩,
  ⟨"BREAK", 0x0000000D, 0xFC00003F, fun _ => .brk⟩,
  ⟨"SYSCALL", 0x0000000C, 0xFC00003F, fun _ => .syscall⟩,
  ⟨"ERET", 0x42000018, 0xFFFFFFFF, fun _ => .eret⟩,
  ⟨"MFHI", 0x00000010, 0xFFFF07FF, fun w => .mfhi (rdField w)⟩,
  ⟨"MFLO", 0x00000012, 0xFFFF07FF, fun w => .mflo (rdField w)⟩,
  ⟨"MTHI", 0x00000011, 0xFC1FFFFF, fun w => .mthi (rsField w)⟩,
  ⟨"MTLO", 0x00000013, 0xFC1FFFFF, fun w => .mtlo (rsField w)⟩,
  ⟨"MFC0", 0x40000000, 0xFFE007FF, fun w => .mfc0 (rtField w) (rdField w)⟩,
  ⟨"MTC0", 0x40800000, 0xFFE007FF, fun w => .mtc0 (rtField w) (rdField w)⟩,
  ⟨"CLZ", 0x70000020, 0xFC0007FF, fun w => .clz (rdField w) (rsField w)⟩,
  ⟨"TEQ", 0x00000034, 0xFC00003F, fun w => .teq (rsField w) (rtField w)⟩]

/-! ### The decoder -/

/-- Why bytes are no instruction. -/
inductive DecodeError where
  /-- No row of R58 matches the word (R62). -/
  | unknownEncoding (w : Word)
  /-- Fewer than the four bytes of an instruction (R50). -/
  | tooShort
deriving DecidableEq, Repr

/-- `decode(w)` of R61: the row that matches, with its fields; a word that matches none is rejected by name (R62). -/
def decode (w : Word) : Except DecodeError Instr :=
  match rows.find? fun r => r.fits w with
  | some r => .ok (r.build w)
  | none => .error (.unknownEncoding w)

/-- The instruction that a list of bytes begins with, lowest address first, and the bytes after it. -/
def decodeBytes (big : Bool) : List Byte → Except DecodeError (Instr × List Byte)
  | b0 :: b1 :: b2 :: b3 :: rest => (decode (joinWord big b0 b1 b2 b3)).map fun i => (i, rest)
  | _ => .error .tooShort

/-- The word whose low `nbits` bits are those of `w`, every bit above them 0. -/
def tableWord (nbits w : Nat) : Word := BitVec.ofNat 32 (w % 2 ^ nbits)

/-- What the decoder reads from the bytes of a word numbered as the opcode table numbers it, bit 0 the least significant (R6, R50). The
bytes are laid out and read in one byte order, so the answer is the same for both (R36). -/
def decodeTableWord (nbits w : Nat) : Option Instr :=
  match decodeBytes false (splitWord false (tableWord nbits w)) with
  | .ok (i, _) => some i
  | .error _ => none

/-! ### The encoder, from the bit patterns of R58 (ignored bits encoded as 0, R65) -/

/-- `op(6) rs(5) rt(5) rd(5) sa(5) funct(6)`: formats R, R2, C0M and C0E of R52. -/
def packR (op : BitVec 6) (rs rt rd sa : RegNo) (funct : BitVec 6) : Word :=
  op.setWidth 32 <<< 26 ||| rs.setWidth 32 <<< 21 ||| rt.setWidth 32 <<< 16 ||| rd.setWidth 32 <<< 11 |||
    sa.setWidth 32 <<< 6 ||| funct.setWidth 32

/-- `op(6) rs(5) rt(5) imm16(16)`: formats I and RI of R52. -/
def packI (op : BitVec 6) (rs rt : RegNo) (imm16 : Half) : Word :=
  op.setWidth 32 <<< 26 ||| rs.setWidth 32 <<< 21 ||| rt.setWidth 32 <<< 16 ||| imm16.setWidth 32

/-- The word of an instruction. -/
def encode : Instr → Word
  | .div rs rt => packR 0b000000 rs rt 0 0 0b011010
  | .divu rs rt => packR 0b000000 rs rt 0 0 0b011011
  | .mult rs rt => packR 0b000000 rs rt 0 0 0b011000
  | .multu rs rt => packR 0b000000 rs rt 0 0 0b011001
  | .bgez rs imm16 => packI 0b000001 rs 0b00001 imm16
  | .jalr rd rs => packR 0b000000 rs 0 rd 0 0b001001
  | .lbu rt base imm16 => packI 0b100100 base rt imm16
  | .lhu rt base imm16 => packI 0b100101 base rt imm16
  | .lb rt base imm16 => packI 0b100000 base rt imm16
  | .lh rt base imm16 => packI 0b100001 base rt imm16
  | .sb rt base imm16 => packI 0b101000 base rt imm16
  | .sh rt base imm16 => packI 0b101001 base rt imm16
  | .brk => packR 0b000000 0 0 0 0 0b001101
  | .syscall => packR 0b000000 0 0 0 0 0b001100
  | .eret => packR 0b010000 0b10000 0 0 0 0b011000
  | .mfhi rd => packR 0b000000 0 0 rd 0 0b010000
  | .mflo rd => packR 0b000000 0 0 rd 0 0b010010
  | .mthi rs => packR 0b000000 rs 0 0 0 0b010001
  | .mtlo rs => packR 0b000000 rs 0 0 0 0b010011
  | .mfc0 rt rd => packR 0b010000 0b00000 rt rd 0 0b000000
  | .mtc0 rt rd => packR 0b010000 0b00100 rt rd 0 0b000000
  | .clz rd rs => packR 0b011100 rs 0 rd 0 0b100000
  | .teq rs rt => packR 0b000000 rs rt 0 0 0b110100

end Sys2Proof
end

