-- ==== Sys2Proof/Machine/State.lean ====
section
/-! DEFINITION. The state of the machine (10_state.md, 20_memory.md R30), the reasons a step can stop, and the state after reset (R27, R170). -/

namespace Sys2Proof.Machine

/-- Memory `M` (R30): the bytes that hold a value, as pairs of address and byte, addresses strictly rising. -/
abbrev Memory := List Host.Cell

/-- Everything the spec gives the machine. -/
@[ext]
structure State where
  /-- The open parameters (R4, R5); no step changes them (log 1). -/
  cfg : Config
  /-- The general registers `x[0]` .. `x[31]` (R10); entry 0 is never read and never written (R11). -/
  regs : Vector Word 32
  /-- `HI` (R12). -/
  hi : Word
  /-- `LO` (R12). -/
  lo : Word
  /-- `pc`, the address of the instruction being executed (R13). -/
  pc : Word
  /-- `npc`, the address of the instruction to execute after the current one (R14). -/
  npc : Word
  /-- `in_delay`: the instruction at `pc` is a delay-slot instruction (R14). -/
  inDelay : Bool
  /-- `CP0.Status` (R19), kept whole: software reads and writes all 32 bits. -/
  status : Word
  /-- `CP0.Cause` (R20), kept whole. -/
  cause : Word
  /-- `CP0.EPC` (R21). -/
  epc : Word
  /-- `CP0.ErrorEPC` (R22). -/
  errorEpc : Word
  /-- `LLbit` (R24). -/
  llbit : Bool
  /-- Memory (R30). -/
  mem : Memory
  /-- The MODEL's own: how many division-by-zero results have been drawn (log 6). -/
  draws : Nat
deriving DecidableEq, Repr

/-- The faults: the step has no meaning or no step exists, and the machine stops. All are safe: the model stops where the hardware may go on. -/
inductive Fault where
  /-- Raised by `step`: the run has ended at `HALT_PC` (R15 step 1, R180; log 8). Safe. -/
  | runEnded
  /-- Raised by `step`: `pc` is no multiple of 4 (R17). Safe. -/
  | misalignedFetch
  /-- Raised by the fetch: its bytes are not all in `CodeRegion`; the spec's `stuck` (R36, R39). Safe. -/
  | fetchNotAdmitted
  /-- Raised by LB, LBU, LH, LHU: an address outside `MemMap`; the spec's `stuck` (R39). Safe. -/
  | loadNotAdmitted
  /-- Raised by SB, SH: an address outside `MemMap`; the spec's `stuck` (R39). Safe. -/
  | storeNotAdmitted
  /-- Raised by the fetch and by LB, LBU, LH, LHU: a byte that holds no value (R39; log 5). Safe. -/
  | readOfUnwrittenMemory
deriving DecidableEq, Repr

/-- The refusals: the spec gives the construct no meaning. All are safe. -/
inductive Refusal where
  /-- Raised by an arm of `exec` whose instruction has no meaning yet. No arm raises it. Safe. -/
  | notModelled (mnemonic : String)
  /-- Raised by `step`: the word matches none of the 23 rows (R62). Safe. -/
  | unknownEncoding (w : Word)
  /-- Raised by BGEZ, JALR, ERET in a delay slot (R15 step 6). Safe. -/
  | controlTransferInDelaySlot
  /-- Raised by an instruction that would raise an exception in a delay slot (R15 step 7, R151). Safe. -/
  | exceptionInDelaySlot
  /-- Raised by an instruction that would raise an exception while `Status.EXL` or `Status.ERL` is 1 (R150). Safe. -/
  | nestedException
  /-- Raised by MFC0 and MTC0 for a number other than 12, 13, 14, 30 (R124, R126). Safe. -/
  | unknownCp0Register (rd : RegNo)
  /-- Raised by SB, SH: a byte to store lies in `CodeRegion` (R44). Safe. -/
  | storeToCode
deriving DecidableEq, Repr

/-- What a meaning answers. -/
abbrev Result := Host.Outcome State Fault Refusal

/-- The state after reset for given parameters (R27, R170): `pc = RESET_PC`, `npc = RESET_PC + 4`, `in_delay = 0`, `x[0] = 0`. The
spec leaves the other registers unspecified; they hold 0 (DESIGN CHOICE, unsafe, log 3). Memory lists nothing. -/
def State.resetWith (c : Config) : State where
  cfg := c
  regs := Vector.replicate 32 0
  hi := 0
  lo := 0
  pc := c.resetPc
  npc := c.resetPc + 4
  inDelay := false
  status := 0
  cause := 0
  epc := 0
  errorEpc := 0
  llbit := false
  mem := []
  draws := 0

/-- The machine right after reset, with the parameter values of `Config.atReset` (log 2). -/
def State.reset : State := State.resetWith Config.atReset

end Sys2Proof.Machine
end

