-- ==== Sys2Proof/Machine/Flags.lean ====
section
/-! DEFINITION. The status fields. The hardware has no condition flags (10_state.md section 3); its one-bit fields and its exception code
stand in CP0.Status and CP0.Cause (R19, R20). -/

namespace Sys2Proof.Machine

/-- `Status` with `EXL`, bit 1, set (R19). -/
def exlBit : Word := 0x00000002

/-- `Status` with `ERL`, bit 2, set (R19). -/
def erlBit : Word := 0x00000004

/-- The bits of `ExcCode`, bits 6..2 of `Cause` (R20). -/
def excCodeBits : Word := 0x0000007C

/-- `Status.EXL` (R19). -/
def State.exl (s : State) : Bool := s.status.getLsbD 1

/-- `Status.ERL` (R19). -/
def State.erl (s : State) : Bool := s.status.getLsbD 2

/-- `Status.EXL <- 1`, every other bit unchanged (R145). -/
def setExl (status : Word) : Word := status ||| exlBit

/-- `Status.EXL <- 0`, every other bit unchanged (R120). -/
def clearExl (status : Word) : Word := status &&& ~~~exlBit

/-- `Status.ERL <- 0`, every other bit unchanged (R120). -/
def clearErl (status : Word) : Word := status &&& ~~~erlBit

/-- `Cause[6:2] <- code`, bits 31..7 and 1..0 unchanged (R145). -/
def setExcCode (cause : Word) (code : BitVec 5) : Word :=
  (cause &&& ~~~excCodeBits) ||| (code.setWidth 32 <<< 2)

end Sys2Proof.Machine
end

