-- ==== Sys2Proof/Machine/Ops.lean ====
section
/-! DEFINITION. The shared operations: registers (10_state.md R10, R11), the endings of an instruction (R16), memory (20_memory.md), the fetch, and
taking an exception and returning from one (60_exceptions.md R145, 45_cp0.md R120). -/

namespace Sys2Proof.Machine

/-- Go on with a value, or stop as the first part stopped. -/
def andThen {α β : Type} (x : Host.Outcome α Fault Refusal) (f : α → Host.Outcome β Fault Refusal) : Host.Outcome β Fault Refusal :=
  match x with
  | .next a => f a
  | .fault e => .fault e
  | .refused e => .refused e

/-! ### Registers (R10, R11, R12) -/

/-- `x[r]`: register 0 reads as 0 (R11). -/
def State.readReg (s : State) (r : RegNo) : Word :=
  if r = 0 then 0 else s.regs[r.toNat]'r.isLt

/-- `x[r] <- v`: a write to register 0 is discarded (R11). -/
def State.writeReg (s : State) (r : RegNo) (v : Word) : State :=
  if r = 0 then s else { s with regs := s.regs.set r.toNat v r.isLt }

/-- `HI <- h` and `LO <- l` (R12). -/
def State.writeHiLo (s : State) (h l : Word) : State := { s with hi := h, lo := l }

/-- The draw `DivByZero(dividend, signed)` (R73): the free value of `Config.divByZero`, and a step of the draw counter (log 6). -/
def State.writeDraw (s : State) (dividend : Word) (signed : Bool) : State :=
  let v := Config.divByZero s.draws dividend signed
  { s with hi := v.1, lo := v.2, draws := s.draws + 1 }

/-! ### The endings of an instruction (R16). Each also does step 5 of R15, `in_delay <- 0`, where it does not set `in_delay`. -/

/-- `advance`: the ending of every instruction that is not BGEZ, JALR or ERET and does not raise. -/
def State.advance (s : State) : State :=
  { s with pc := s.npc, npc := s.npc + 4, inDelay := false }

/-- `jump_now(t)`: no delay slot. -/
def State.jumpNow (s : State) (t : Word) : State :=
  { s with pc := t, npc := t + 4, inDelay := false }

/-- `branch_to(t)`: through the delay slot where there is one. -/
def State.branchTo (s : State) (t : Word) : State :=
  if s.cfg.delaySlots then { s with pc := s.npc, npc := t, inDelay := true } else s.jumpNow t

/-- `branch_not_taken`: the next instruction is a delay-slot instruction where there are delay slots. -/
def State.branchNotTaken (s : State) : State :=
  { s with pc := s.npc, npc := s.npc + 4, inDelay := s.cfg.delaySlots }

/-- A control transfer in a delay slot is refused (R15 step 6, D26). -/
def State.transfer (s : State) (t : State) : Result :=
  if s.inDelay then .refused .controlTransferInDelaySlot else .next t

/-! ### Memory (20_memory.md) -/

/-- What an address that memory does not list reads as: nothing, it holds no value (R27, R39; log 5). -/
def Memory.unlisted : Option Byte := none

/-- The byte at an address. -/
def Memory.read : Memory → Nat → Option Byte
  | [], _ => Memory.unlisted
  | (k, v) :: m, a => if a = k then some v else Memory.read m a

/-- The byte `v` in front of the cells `m`, unless it is what an unlisted address reads as. -/
def Memory.cons (a : Nat) (v : Byte) (m : Memory) : Memory :=
  if some v = Memory.unlisted then m else (a, v) :: m

/-- `M[a] <- v` in the canonical form. -/
def Memory.write : Memory → Nat → Byte → Memory
  | [], a, v => Memory.cons a v []
  | (k, w) :: m, a, v =>
    if a < k then Memory.cons a v ((k, w) :: m)
    else if a = k then Memory.cons a v m
    else (k, w) :: Memory.write m a v

/-- The bytes written one after another from address `a` up. -/
def Memory.writeBytes : Memory → Nat → List Byte → Memory
  | m, _, [] => m
  | m, a, b :: bs => Memory.writeBytes (Memory.write m a b) (a + 1) bs

/-- The canonical form: addresses strictly rising, inside the 32-bit space (R30), and no entry equal to what an unlisted address reads as. -/
abbrev Memory.wf (m : Memory) : Prop :=
  m.Pairwise (fun x y => x.1 < y.1) ∧ ∀ c ∈ m, c.1 < 2 ^ 32 ∧ some c.2 ≠ Memory.unlisted

/-- The addresses `a .. a + n - 1`. -/
def span (a n : Nat) : List Nat := (List.range n).map (a + ·)

/-- An instruction fetch at `a` is admitted (R39). -/
def State.admitsFetch (s : State) (a : Nat) : Bool := (span a 4).all s.cfg.inCode

/-- A load of `n` bytes at `a` is admitted (R39). -/
def State.admitsLoad (s : State) (a n : Nat) : Bool := (span a n).all fun x => s.cfg.inData x || s.cfg.inCode x

/-- A store of `n` bytes at `a` touches `CodeRegion` (R44). -/
def State.touchesCode (s : State) (a n : Nat) : Bool := (span a n).any s.cfg.inCode

/-- A store of `n` bytes at `a` lies in `DataRegion` (R39). -/
def State.inDataRegion (s : State) (a n : Nat) : Bool := (span a n).all s.cfg.inData

/-- `M[a]` for a read that is admitted: a byte that holds no value stops the read (R39, D3). -/
def State.byteAt (s : State) (a : Nat) : Host.Outcome Byte Fault Refusal :=
  match s.mem.read a with
  | some b => .next b
  | none => .fault .readOfUnwrittenMemory

/-- `MemRead(addr, 1)` of a load (R33, R39). -/
def State.loadByte (s : State) (addr : Word) : Host.Outcome Byte Fault Refusal :=
  if s.admitsLoad addr.toNat 1 then s.byteAt addr.toNat else .fault .loadNotAdmitted

/-- `MemRead(addr, 2)` of a load (R33, R39). -/
def State.loadHalf (s : State) (addr : Word) : Host.Outcome Half Fault Refusal :=
  if s.admitsLoad addr.toNat 2 then
    andThen (s.byteAt addr.toNat) fun b0 =>
    andThen (s.byteAt (addr.toNat + 1)) fun b1 => .next (joinHalf s.cfg.bigEndian b0 b1)
  else .fault .loadNotAdmitted

/-- `MemWrite` of the bytes, lowest address first (R34): refused where a byte lies in `CodeRegion` (R44), stuck where one lies outside
`DataRegion` (R39). -/
def State.store (s : State) (addr : Word) (bytes : List Byte) : Result :=
  if s.touchesCode addr.toNat bytes.length then .refused .storeToCode
  else if s.inDataRegion addr.toNat bytes.length then .next { s with mem := s.mem.writeBytes addr.toNat bytes }
  else .fault .storeNotAdmitted

/-! ### The fetch (R36) -/

/-- The run has ended (R15 step 1, R180). -/
def State.ended (s : State) : Bool := s.cfg.haltPc == some s.pc && !s.inDelay

/-- `MemRead(pc, 4)` of the fetch, in the data byte order (R36, R39). -/
def State.fetch (s : State) : Host.Outcome Word Fault Refusal :=
  if s.admitsFetch s.pc.toNat then
    andThen (s.byteAt s.pc.toNat) fun b0 =>
    andThen (s.byteAt (s.pc.toNat + 1)) fun b1 =>
    andThen (s.byteAt (s.pc.toNat + 2)) fun b2 =>
    andThen (s.byteAt (s.pc.toNat + 3)) fun b3 => .next (joinWord s.cfg.bigEndian b0 b1 b2 b3)
  else .fault .fetchNotAdmitted

/-- Steps 2 to 4 of R15: the instruction at `pc`. -/
def State.fetchInstr (s : State) : Host.Outcome Instr Fault Refusal :=
  if Word.aligned s.pc then
    andThen s.fetch fun w =>
      match decode w with
      | .ok i => .next i
      | .error _ => .refused (.unknownEncoding w)
  else .fault .misalignedFetch

/-- The parameters under which a fetch at `a` is admitted and the run has not ended there: `a .. a + 3` is added to
`CodeRegion` unless it lies in it, and `HALT_PC` is absent if it is `a` (R39, R180; log 16). -/
def fetchingConfig (c : Config) (a : Word) : Config :=
  { c with
    codeRegion := if (span a.toNat 4).all c.inCode then c.codeRegion else ⟨a.toNat, 4⟩ :: c.codeRegion
    haltPc := if c.haltPc = some a then none else c.haltPc }

/-! ### Taking an exception (60_exceptions.md R145) and returning from one (45_cp0.md R120) -/

/-- The five exceptions (R140). -/
inductive Exc where
  | addressErrorLoad
  | addressErrorStore
  | systemCall
  | breakpoint
  | trap
deriving DecidableEq, Repr

/-- `code(E)`, the value for `Cause.ExcCode` (R140, D21). -/
def excCode : Exc → BitVec 5
  | .addressErrorLoad => 4
  | .addressErrorStore => 5
  | .systemCall => 8
  | .breakpoint => 9
  | .trap => 13

/-- Trap entry (R145): `EPC <- pc + 4`, `Cause[6:2] <- code(E)`, `Status.EXL <- 1`, `jump_now(EXC_VECTOR)`. -/
def State.trapEntry (s : State) (e : Exc) : State :=
  ({ s with epc := s.pc + 4, cause := setExcCode s.cause (excCode e), status := setExl s.status }).jumpNow s.cfg.excVector

/-- `raise E`: refused in a delay slot (R15 step 7, R151) and while `EXL` or `ERL` is 1 (R150), else trap entry. -/
def State.raise (s : State) (e : Exc) : Result :=
  if s.inDelay then .refused .exceptionInDelaySlot
  else if s.exl || s.erl then .refused .nestedException
  else .next (s.trapEntry e)

/-- The return from an exception (R120): from `ErrorEPC`, clearing `ERL`, where `ERL = 1`; else from `EPC`, clearing `EXL`. `LLbit <- 0`. -/
def State.exceptionReturn (s : State) : State :=
  if s.erl then ({ s with status := clearErl s.status, llbit := false }).jumpNow s.errorEpc
  else ({ s with status := clearExl s.status, llbit := false }).jumpNow s.epc

end Sys2Proof.Machine
end

