-- ==== Sys2Proof/Machine/Operands.lean ====
section
/-! DEFINITION. The operand forms: the effective address (20_memory.md R31), the branch target and the link (43_control.md R100, R102), and the CP0
register that a number names (10_state.md R18). -/

namespace Sys2Proof.Machine

/-- `vAddr <- sext_32(imm16) + x[base]`, modulo 2^32 (R31, R96). -/
def State.effAddr (s : State) (base : RegNo) (imm16 : Half) : Word :=
  imm16.signExtend 32 + s.readReg base

/-- `vAddr[0] != 0`: a halfword access would be misaligned (R37). -/
def oddAddr (a : Word) : Bool := a.getLsbD 0

/-- `sext_32({imm16, 00})` (R54, R100). -/
def branchOffset (imm16 : Half) : Word := (imm16 ++ 0#2).signExtend 32

/-- `(pc + 4) + target_offset` (R100). -/
def State.branchTarget (s : State) (imm16 : Half) : Word := (s.pc + 4) + branchOffset imm16

/-- The return address JALR keeps: `pc + 8` with delay slots, else `pc + 4` (R102, D5). -/
def State.link (s : State) : Word := if s.cfg.delaySlots then s.pc + 8 else s.pc + 4

/-- The four CP0 registers (R18). -/
inductive Cp0 where
  | status
  | cause
  | epc
  | errorEpc
deriving DecidableEq, Repr

/-- The CP0 register a number names, `sel` 0 (R18, D19). -/
def cp0Of (rd : RegNo) : Option Cp0 :=
  if rd = 12 then some .status
  else if rd = 13 then some .cause
  else if rd = 14 then some .epc
  else if rd = 30 then some .errorEpc
  else none

/-- All 32 bits of a CP0 register (R19 to R22, D20). -/
def State.readCp0 (s : State) : Cp0 → Word
  | .status => s.status
  | .cause => s.cause
  | .epc => s.epc
  | .errorEpc => s.errorEpc

/-- A write of all 32 bits of a CP0 register (R19 to R22, D20). -/
def State.writeCp0 (s : State) (c : Cp0) (v : Word) : State :=
  match c with
  | .status => { s with status := v }
  | .cause => { s with cause := v }
  | .epc => { s with epc := v }
  | .errorEpc => { s with errorEpc := v }

end Sys2Proof.Machine
end

