-- ==== Sys2Proof/Machine/Clz.lean ====
section
/-! DEFINITION. CLZ (46_clz.md). -/

namespace Sys2Proof.Machine

/-- The loop of R130 over the bits `n - 1` down to 0: it leaves at the first one bit, with 32 if there is none. -/
def leadingZeros (v : Word) : Nat → Nat
  | 0 => 32
  | i + 1 => if v.getLsbD i then 31 - i else leadingZeros v i

/-- CLZ (R130): `x[rd]` gets the number of leading zeros of `x[rs]`. -/
def execClz (rd rs : RegNo) (s : State) : Result :=
  .next (s.writeReg rd (BitVec.ofNat 32 (leadingZeros (s.readReg rs) 32))).advance

end Sys2Proof.Machine
end

