-- ==== Sys2Proof/Machine/Control.lean ====
section
/-! DEFINITION. BGEZ and JALR (43_control.md). -/

namespace Sys2Proof.Machine

/-- BGEZ (R100): taken when `s(x[rs]) >= 0`, that is when bit 31 is 0. -/
def execBgez (rs : RegNo) (imm16 : Half) (s : State) : Result :=
  s.transfer (if (s.readReg rs).msb then s.branchNotTaken else s.branchTo (s.branchTarget imm16))

/-- JALR (R102): the target is read before the link is written. -/
def execJalr (rd rs : RegNo) (s : State) : Result :=
  s.transfer ((s.writeReg rd s.link).branchTo (s.readReg rs))

end Sys2Proof.Machine
end

