-- ==== Sys2Proof/Machine/Cp0Moves.lean ====
section
/-! DEFINITION. ERET, MFC0, MTC0 (45_cp0.md). There is one mode, in which all three are always permitted (R158). -/

namespace Sys2Proof.Machine

/-- ERET (R120): no delay slot; refused in one (R15 step 6). -/
def execEret (s : State) : Result := s.transfer s.exceptionReturn

/-- MFC0 (R124): `x[rt]` gets the CP0 register of number `rd`; another number is refused. -/
def execMfc0 (rt rd : RegNo) (s : State) : Result :=
  match cp0Of rd with
  | some c => .next (s.writeReg rt (s.readCp0 c)).advance
  | none => .refused (.unknownCp0Register rd)

/-- MTC0 (R126): the CP0 register of number `rd` gets `x[rt]`; another number is refused. -/
def execMtc0 (rt rd : RegNo) (s : State) : Result :=
  match cp0Of rd with
  | some c => .next (s.writeCp0 c (s.readReg rt)).advance
  | none => .refused (.unknownCp0Register rd)

end Sys2Proof.Machine
end

