-- ==== Sys2Proof/Machine/HiLo.lean ====
section
/-! DEFINITION. MFHI, MFLO, MTHI, MTLO (41_hilo.md). -/

namespace Sys2Proof.Machine

/-- MFHI (R83): `x[rd] <- HI`. -/
def execMfhi (rd : RegNo) (s : State) : Result := .next (s.writeReg rd s.hi).advance

/-- MFLO (R80): `x[rd] <- LO`. -/
def execMflo (rd : RegNo) (s : State) : Result := .next (s.writeReg rd s.lo).advance

/-- MTHI (R81): `HI <- x[rs]`, `LO` unchanged. -/
def execMthi (rs : RegNo) (s : State) : Result := .next (s.writeHiLo (s.readReg rs) s.lo).advance

/-- MTLO (R82): `LO <- x[rs]`, `HI` unchanged. -/
def execMtlo (rs : RegNo) (s : State) : Result := .next (s.writeHiLo s.hi (s.readReg rs)).advance

end Sys2Proof.Machine
end

