-- ==== Sys2Proof/Machine/LoadStore.lean ====
section
/-! DEFINITION. LB, LBU, LH, LHU, SB, SH (42_loadstore.md). The order of tests is R96's: alignment (raise), then admission. -/

namespace Sys2Proof.Machine

/-- A byte load: `MemRead(vAddr, 1)`, extended, to `x[rt]` (R90, R91, R96). -/
def State.byteLoad (s : State) (ext : Byte → Word) (rt base : RegNo) (imm16 : Half) : Result :=
  andThen (s.loadByte (s.effAddr base imm16)) fun b => .next (s.writeReg rt (ext b)).advance

/-- A halfword load: an odd address raises; else `MemRead(vAddr, 2)`, extended, to `x[rt]` (R92, R93, R96). -/
def State.halfLoad (s : State) (ext : Half → Word) (rt base : RegNo) (imm16 : Half) : Result :=
  if oddAddr (s.effAddr base imm16) then s.raise .addressErrorLoad
  else andThen (s.loadHalf (s.effAddr base imm16)) fun h => .next (s.writeReg rt (ext h)).advance

/-- LB (R90): sign-extended byte. -/
def execLb (rt base : RegNo) (imm16 : Half) (s : State) : Result :=
  s.byteLoad (fun b => b.signExtend 32) rt base imm16

/-- LBU (R91): zero-extended byte. -/
def execLbu (rt base : RegNo) (imm16 : Half) (s : State) : Result :=
  s.byteLoad (fun b => b.setWidth 32) rt base imm16

/-- LH (R92): sign-extended halfword. -/
def execLh (rt base : RegNo) (imm16 : Half) (s : State) : Result :=
  s.halfLoad (fun h => h.signExtend 32) rt base imm16

/-- LHU (R93): zero-extended halfword. -/
def execLhu (rt base : RegNo) (imm16 : Half) (s : State) : Result :=
  s.halfLoad (fun h => h.setWidth 32) rt base imm16

/-- SB (R94): `MemWrite(vAddr, 1, x[rt][7:0])`. -/
def execSb (rt base : RegNo) (imm16 : Half) (s : State) : Result :=
  andThen (s.store (s.effAddr base imm16) [byteOf (s.readReg rt) 0]) fun t => .next t.advance

/-- SH (R95): an odd address raises; else `MemWrite(vAddr, 2, x[rt][15:0])`. -/
def execSh (rt base : RegNo) (imm16 : Half) (s : State) : Result :=
  if oddAddr (s.effAddr base imm16) then s.raise .addressErrorStore
  else
    andThen (s.store (s.effAddr base imm16) (splitHalf s.cfg.bigEndian ((s.readReg rt).extractLsb' 0 16)))
      fun t => .next t.advance

end Sys2Proof.Machine
end

