-- ==== Sys2Proof/Machine/MulDiv.lean ====
section
/-! DEFINITION. MULT, MULTU, DIV, DIVU (40_muldiv.md). None raises an exception, whatever the operands. -/

namespace Sys2Proof.Machine

/-- A 64-bit product: the low half to `LO`, the high half to `HI` (R12, R70, R71). -/
def State.writeProduct (s : State) (prod : BitVec 64) : State :=
  s.writeHiLo (prod.extractLsb' 32 32) (prod.extractLsb' 0 32)

/-- The signed quotient, rounded toward zero: `sign(a) * sign(b) * floor(|a| / |b|)` (R72, R74, D16). -/
def signedQuot (a b : Int) : Int := a.sign * b.sign * ((a.natAbs / b.natAbs : Nat) : Int)

/-- MULT (R70): the exact product of the signed values. -/
def execMult (rs rt : RegNo) (s : State) : Result :=
  .next (s.writeProduct (BitVec.ofInt 64 ((s.readReg rs).toInt * (s.readReg rt).toInt))).advance

/-- MULTU (R71): the exact product of the unsigned values. -/
def execMultu (rs rt : RegNo) (s : State) : Result :=
  .next (s.writeProduct (BitVec.ofNat 64 ((s.readReg rs).toNat * (s.readReg rt).toNat))).advance

/-- DIV (R74): quotient to `LO`, remainder to `HI`, as signed values; a zero divisor draws both (R73, log 6). The quotient
+2^31 of -2^31 by -1 leaves its low 32 bits in `LO` (R73, D18; log 7). -/
def execDiv (rs rt : RegNo) (s : State) : Result :=
  let a := s.readReg rs
  let b := s.readReg rt
  if b = 0 then .next (s.writeDraw a true).advance
  else
    let q := signedQuot a.toInt b.toInt
    .next (s.writeHiLo (BitVec.ofInt 32 (a.toInt - q * b.toInt)) (BitVec.ofInt 32 q)).advance

/-- DIVU (R75): quotient to `LO`, remainder to `HI`, as unsigned values; a zero divisor draws both (R73, log 6). -/
def execDivu (rs rt : RegNo) (s : State) : Result :=
  let a := s.readReg rs
  let b := s.readReg rt
  if b = 0 then .next (s.writeDraw a false).advance
  else
    let q := a.toNat / b.toNat
    .next (s.writeHiLo (BitVec.ofNat 32 (a.toNat - q * b.toNat)) (BitVec.ofNat 32 q)).advance

end Sys2Proof.Machine
end

