-- ==== Sys2Proof/Machine/Trap.lean ====
section
/-! DEFINITION. BREAK, SYSCALL, TEQ (44_trap.md). -/

namespace Sys2Proof.Machine

/-- BREAK (R110): always raises `Breakpoint`. -/
def execBreak (s : State) : Result := s.raise .breakpoint

/-- SYSCALL (R111): always raises `SystemCall`. -/
def execSyscall (s : State) : Result := s.raise .systemCall

/-- TEQ (R112): raises `Trap` iff the two registers are equal. -/
def execTeq (rs rt : RegNo) (s : State) : Result :=
  if s.readReg rs = s.readReg rt then s.raise .trap else .next s.advance

end Sys2Proof.Machine
end

