-- ==== Sys2Proof/Machine/Dispatch.lean ====
section
/-! DEFINITION. The meaning of each instruction, one arm for each constructor of `Instr`. -/

namespace Sys2Proof.Machine

/-- Step 7 of R15: execute the instruction by its rule. -/
def exec (i : Instr) (s : State) : Host.Outcome State Fault Refusal :=
  match i with
  | .div rs rt => Sys2Proof.Machine.execDiv rs rt s
  | .divu rs rt => Sys2Proof.Machine.execDivu rs rt s
  | .mult rs rt => Sys2Proof.Machine.execMult rs rt s
  | .multu rs rt => Sys2Proof.Machine.execMultu rs rt s
  | .bgez rs imm16 => Sys2Proof.Machine.execBgez rs imm16 s
  | .jalr rd rs => Sys2Proof.Machine.execJalr rd rs s
  | .lbu rt base imm16 => Sys2Proof.Machine.execLbu rt base imm16 s
  | .lhu rt base imm16 => Sys2Proof.Machine.execLhu rt base imm16 s
  | .lb rt base imm16 => Sys2Proof.Machine.execLb rt base imm16 s
  | .lh rt base imm16 => Sys2Proof.Machine.execLh rt base imm16 s
  | .sb rt base imm16 => Sys2Proof.Machine.execSb rt base imm16 s
  | .sh rt base imm16 => Sys2Proof.Machine.execSh rt base imm16 s
  | .brk => Sys2Proof.Machine.execBreak s
  | .syscall => Sys2Proof.Machine.execSyscall s
  | .eret => Sys2Proof.Machine.execEret s
  | .mfhi rd => Sys2Proof.Machine.execMfhi rd s
  | .mflo rd => Sys2Proof.Machine.execMflo rd s
  | .mthi rs => Sys2Proof.Machine.execMthi rs s
  | .mtlo rs => Sys2Proof.Machine.execMtlo rs s
  | .mfc0 rt rd => Sys2Proof.Machine.execMfc0 rt rd s
  | .mtc0 rt rd => Sys2Proof.Machine.execMtc0 rt rd s
  | .clz rd rs => Sys2Proof.Machine.execClz rd rs s
  | .teq rs rt => Sys2Proof.Machine.execTeq rs rt s

end Sys2Proof.Machine
end

