-- ==== Sys2Proof/Machine/Step.lean ====
section
/-! DEFINITION. One step of the machine (10_state.md R15), and the load of one instruction word where the next step fetches. -/

namespace Sys2Proof.Machine

/-- One step (R15): the end of the run, then the fetch and decoding, then the instruction's own rule, which also does steps 5 to 7
for its ending. -/
def step (s : State) : Host.Outcome State Fault Refusal :=
  if s.ended then .fault .runEnded else andThen s.fetchInstr fun i => exec i s

/-- `s` with an instruction word, numbered as the opcode table numbers it, stored at `pc`, where the next step fetches (R36,
R181; log 16), and with parameters under which that fetch is admitted. -/
def State.withFetchWord (s : State) (nbits w : Nat) : State :=
  { s with
    cfg := fetchingConfig s.cfg s.pc
    mem := s.mem.writeBytes s.pc.toNat (splitWord s.cfg.bigEndian (tableWord nbits w)) }

end Sys2Proof.Machine
end

