-- ==== Sys2Proof/Safety.lean ====
section
/-! DEFINITION. What a safe run is, and the invariant that rules out the states no run reaches (10_state.md R14, R17, R27). -/

namespace Sys2Proof.Machine

/-- The invariant of a run: memory in its canonical form (R30); parameters of the types of R5; `x[0]` holds 0 (R11, R27); `npc = pc + 4` outside a
delay slot (R14); no delay slot where `DELAY_SLOTS = false` (R14). -/
structure State.Inv (s : State) : Prop where
  memory : s.mem.wf
  config : s.cfg.wf = true
  zero : s.regs[0] = 0
  sequential : s.inDelay = false → s.npc = s.pc + 4
  noSlot : s.cfg.delaySlots = false → s.inDelay = false

/-- `n` steps, one after another, stopping where a step stops. -/
def State.run : Nat → State → Result
  | 0, s => .next s
  | n + 1, s => andThen (step s) (State.run n)

/-- The run of `n` steps stops at no fault and no refusal before its end: it makes `n` steps, or reaches `HALT_PC` (R180). -/
def State.runsSafely (n : Nat) (s : State) : Prop :=
  match s.run n with
  | .next _ => True
  | .fault e => e = .runEnded
  | .refused _ => False

end Sys2Proof.Machine
end

