-- ==== Sys2Proof/Certificates/Slice0/Obligations.lean ====
section
/-! DEFINITION. The statements about this machine for the provers, with the few words they are written in. -/

namespace Sys2Proof.Claims

open Sys2Proof.Machine

/-- The mask and the match of each row of 30_encoding.md R58, in the table's order. -/
def patterns : List (Word × Word) := [
  (0xFC00FFFF, 0x0000001A), (0xFC00FFFF, 0x0000001B), (0xFC00FFFF, 0x00000018), (0xFC00FFFF, 0x00000019),
  (0xFC1F0000, 0x04010000), (0xFC1F07FF, 0x00000009), (0xFC000000, 0x90000000), (0xFC000000, 0x94000000),
  (0xFC000000, 0x80000000), (0xFC000000, 0x84000000), (0xFC000000, 0xA0000000), (0xFC000000, 0xA4000000),
  (0xFC00003F, 0x0000000D), (0xFC00003F, 0x0000000C), (0xFFFFFFFF, 0x42000018), (0xFFFF07FF, 0x00000010),
  (0xFFFF07FF, 0x00000012), (0xFC1FFFFF, 0x00000011), (0xFC1FFFFF, 0x00000013), (0xFFE007FF, 0x40000000),
  (0xFFE007FF, 0x40800000), (0xFC0007FF, 0x70000020), (0xFC00003F, 0x00000034)]

/-- The bits of an instruction's word that the decoder does not ignore (R56, R60): bits 25..6 of BREAK and SYSCALL, 15..6 of TEQ and 20..16 of CLZ
are ignored. -/
def keptBits : Instr → Word
  | .brk => 0xFC00003F
  | .syscall => 0xFC00003F
  | .teq _ _ => 0xFFFF003F
  | .clz _ _ => 0xFFE0FFFF
  | _ => 0xFFFFFFFF

/-- `w[25:21]`, `w[20:16]` and `w[15:11]` (R51). -/
def rs (w : Word) : RegNo := w.extractLsb' 21 5
def rt (w : Word) : RegNo := w.extractLsb' 16 5
def rd (w : Word) : RegNo := w.extractLsb' 11 5

/-- The word `w` is decoded as the instruction `i`. -/
def reads (w : Word) (i : Instr) : Prop := decode w = .ok i

/-- A multiple of 4. -/
def multipleOf4 (w : Word) : Prop := w.toNat % 4 = 0

/-- All bytes of memory read in `t` as they read in `s`. -/
def memoryAsBefore (s t : State) : Prop := ∀ a : Nat, t.mem.read a = s.mem.read a

/-- `x[r]` holds `v` in `t` (0 if `r` is 0, R11), and every other general register, and everything but `pc`, `npc` and `in_delay`, which `advance` (R16), is as in `s`. -/
def onlyRegister (s t : State) (r : RegNo) (v : Word) : Prop :=
  t.readReg r = (if r = 0 then 0 else v) ∧ (∀ q, q ≠ r → t.readReg q = s.readReg q) ∧
  t = { s with regs := t.regs, pc := s.npc, npc := s.npc + 4, inDelay := false }

/-- The general register an instruction may write (10_state.md, the table after R11). -/
def destination : Instr → Option RegNo
  | .mfhi rd | .mflo rd | .jalr rd _ | .clz rd _ => some rd
  | .lb rt _ _ | .lbu rt _ _ | .lh rt _ _ | .lhu rt _ _ | .mfc0 rt _ => some rt
  | _ => none

/-- The effective address `sext_32(imm16) + x[base]` (R31). -/
def address (s : State) (base : RegNo) (imm16 : Half) : Word := imm16.signExtend 32 + s.readReg base

/-- The exception an instruction raises in a state (R140), if it raises one. -/
def raised (s : State) : Instr → Option Exc
  | .brk => some .breakpoint
  | .syscall => some .systemCall
  | .teq rs rt => if s.readReg rs = s.readReg rt then some .trap else none
  | .lh _ base imm16 | .lhu _ base imm16 => if (address s base imm16).toNat % 2 = 1 then some .addressErrorLoad else none
  | .sh _ base imm16 => if (address s base imm16).toNat % 2 = 1 then some .addressErrorStore else none
  | _ => none

/-- The exception codes of R140. -/
def code : Exc → Nat
  | .addressErrorLoad => 4
  | .addressErrorStore => 5
  | .systemCall => 8
  | .breakpoint => 9
  | .trap => 13

/-- `t` is `s` after trap entry for `e` (R145): the code in `Cause[6:2]` and every other bit of `Cause` as before; `Status` as before but bit 1,
which is 1; `EPC = pc + 4`; control at `EXC_VECTOR`; everything else as before. -/
def entered (s t : State) (e : Exc) : Prop :=
  (t.cause.extractLsb' 2 5).toNat = code e ∧ (∀ k < 32, k < 2 ∨ 6 < k → t.cause.getLsbD k = s.cause.getLsbD k) ∧
  t.status.getLsbD 1 = true ∧ (∀ k < 32, k ≠ 1 → t.status.getLsbD k = s.status.getLsbD k) ∧
  t = { s with
    pc := s.cfg.excVector, npc := s.cfg.excVector + 4, inDelay := false, epc := s.pc + 4, cause := t.cause, status := t.status }

/-- The load of `n` bytes at `a` is admitted (R39). -/
def mayLoad (s : State) (a n : Nat) : Prop := ∀ k < n, s.cfg.inData (a + k) = true ∨ s.cfg.inCode (a + k) = true

/-- The store of `n` bytes at `a` is admitted, and touches no code (R39, R44). -/
def mayStore (s : State) (a n : Nat) : Prop := ∀ k < n, s.cfg.inData (a + k) = true ∧ s.cfg.inCode (a + k) = false

/-- The value of the halfword whose bytes are `b0`, at the lower address, and `b1` (R33). -/
def halfValue (big : Bool) (b0 b1 : Byte) : Nat := if big then b0.toNat * 256 + b1.toNat else b1.toNat * 256 + b0.toNat

/-- Two answers agree, but for what `erase` erases from a next state. -/
def agree (erase : State → State) : Result → Result → Prop
  | .next t, .next u => erase t = erase u
  | .fault e, .fault f => e = f
  | .refused e, .refused f => e = f
  | _, _ => False

end Sys2Proof.Claims

open Sys2Proof Sys2Proof.Machine

/-! ### Encoding -/

/-- 30_encoding.md R58: a word is a row's instruction, with the row's fields, iff `w & mask = match`. The last clause is the other direction: a
word that matches no row is no instruction. -/
def Obligations.DecodeFollowsThePatternTable : Prop :=
  (∀ w : Word, w &&& 0xFC00FFFF = 0x0000001A → Claims.reads w (.div (Claims.rs w) (Claims.rt w))) ∧
  (∀ w : Word, w &&& 0xFC00FFFF = 0x0000001B → Claims.reads w (.divu (Claims.rs w) (Claims.rt w))) ∧
  (∀ w : Word, w &&& 0xFC00FFFF = 0x00000018 → Claims.reads w (.mult (Claims.rs w) (Claims.rt w))) ∧
  (∀ w : Word, w &&& 0xFC00FFFF = 0x00000019 → Claims.reads w (.multu (Claims.rs w) (Claims.rt w))) ∧
  (∀ w : Word, w &&& 0xFC1F0000 = 0x04010000 → Claims.reads w (.bgez (Claims.rs w) (w.extractLsb' 0 16))) ∧
  (∀ w : Word, w &&& 0xFC1F07FF = 0x00000009 → Claims.reads w (.jalr (Claims.rd w) (Claims.rs w))) ∧
  (∀ w : Word, w &&& 0xFC000000 = 0x90000000 → Claims.reads w (.lbu (Claims.rt w) (Claims.rs w) (w.extractLsb' 0 16))) ∧
  (∀ w : Word, w &&& 0xFC000000 = 0x94000000 → Claims.reads w (.lhu (Claims.rt w) (Claims.rs w) (w.extractLsb' 0 16))) ∧
  (∀ w : Word, w &&& 0xFC000000 = 0x80000000 → Claims.reads w (.lb (Claims.rt w) (Claims.rs w) (w.extractLsb' 0 16))) ∧
  (∀ w : Word, w &&& 0xFC000000 = 0x84000000 → Claims.reads w (.lh (Claims.rt w) (Claims.rs w) (w.extractLsb' 0 16))) ∧
  (∀ w : Word, w &&& 0xFC000000 = 0xA0000000 → Claims.reads w (.sb (Claims.rt w) (Claims.rs w) (w.extractLsb' 0 16))) ∧
  (∀ w : Word, w &&& 0xFC000000 = 0xA4000000 → Claims.reads w (.sh (Claims.rt w) (Claims.rs w) (w.extractLsb' 0 16))) ∧
  (∀ w : Word, w &&& 0xFC00003F = 0x0000000D → Claims.reads w .brk) ∧
  (∀ w : Word, w &&& 0xFC00003F = 0x0000000C → Claims.reads w .syscall) ∧
  (∀ w : Word, w &&& 0xFFFFFFFF = 0x42000018 → Claims.reads w .eret) ∧
  (∀ w : Word, w &&& 0xFFFF07FF = 0x00000010 → Claims.reads w (.mfhi (Claims.rd w))) ∧
  (∀ w : Word, w &&& 0xFFFF07FF = 0x00000012 → Claims.reads w (.mflo (Claims.rd w))) ∧
  (∀ w : Word, w &&& 0xFC1FFFFF = 0x00000011 → Claims.reads w (.mthi (Claims.rs w))) ∧
  (∀ w : Word, w &&& 0xFC1FFFFF = 0x00000013 → Claims.reads w (.mtlo (Claims.rs w))) ∧
  (∀ w : Word, w &&& 0xFFE007FF = 0x40000000 → Claims.reads w (.mfc0 (Claims.rt w) (Claims.rd w))) ∧
  (∀ w : Word, w &&& 0xFFE007FF = 0x40800000 → Claims.reads w (.mtc0 (Claims.rt w) (Claims.rd w))) ∧
  (∀ w : Word, w &&& 0xFC0007FF = 0x70000020 → Claims.reads w (.clz (Claims.rd w) (Claims.rs w))) ∧
  (∀ w : Word, w &&& 0xFC00003F = 0x00000034 → Claims.reads w (.teq (Claims.rs w) (Claims.rt w))) ∧
  (∀ w : Word, (∀ p ∈ Claims.patterns, w &&& p.1 ≠ p.2) → ∀ i, ¬ Claims.reads w i)

/-- Decode and encode agree on every instruction: with every operand at every value, the decoder reads the instruction back from its word. -/
def Obligations.EncodedInstructionDecodesToItself : Prop :=
  ∀ i : Instr, decode (encode i) = .ok i

/-- The other direction (30_encoding.md R60): the word of a decoded instruction is the word decoded, but for the bits the decoder ignores, which are 0. -/
def Obligations.DecodedWordEncodesToItsKeptBits : Prop :=
  ∀ (w : Word) (i : Instr), decode w = .ok i → encode i = w &&& Claims.keptBits i

/-- Words written out in 95_test_vectors.md sections 1 and 2, those that decode and some that are refused. -/
def Obligations.WrittenOutWordsDecode : Prop :=
  Claims.reads 0x01090018 (.mult 8 9) ∧ Claims.reads 0x0000001A (.div 0 0) ∧ Claims.reads 0x05010000 (.bgez 8 0) ∧
  Claims.reads 0x0320F809 (.jalr 31 25) ∧ Claims.reads 0x83FFFFFF (.lb 31 31 0xFFFF) ∧ Claims.reads 0xA7FFFFFF (.sh 31 31 0xFFFF) ∧
  Claims.reads 0x03FFFFCD .brk ∧ Claims.reads 0x0000000C .syscall ∧ Claims.reads 0x0109FFF4 (.teq 8 9) ∧ Claims.reads 0x42000018 .eret ∧
  Claims.reads 0x00005010 (.mfhi 10) ∧ Claims.reads 0x01000011 (.mthi 8) ∧ Claims.reads 0x401A7000 (.mfc0 26 14) ∧
  Claims.reads 0x40800000 (.mtc0 0 0) ∧ Claims.reads 0x710A5020 (.clz 10 8) ∧
  (∀ w ∈ ([0x01090058, 0x01090818, 0x05000000, 0x0320FC09, 0x03E00008, 0x00000000, 0x8FFFFFFF, 0x42000019, 0x401A7001, 0x40A06000,
    0x70000021] : List Word), decode w = .error (.unknownEncoding w))

/-! ### The step and reset -/

/-- 10_state.md R15: where the run has not ended and the four bytes at an aligned, admitted `pc` hold the word of an instruction in the byte order, the step is
that instruction's meaning. `exec` is given the state as it is; moving `pc` is part of the meaning (R16). -/
def Obligations.StepRunsTheDecodedInstruction : Prop :=
  ∀ (s : State) (b0 b1 b2 b3 : Byte) (i : Instr),
    ¬ (s.cfg.haltPc = some s.pc ∧ s.inDelay = false) → Claims.multipleOf4 s.pc →
    (∀ k < 4, s.cfg.inCode (s.pc.toNat + k) = true) →
    s.mem.read s.pc.toNat = some b0 → s.mem.read (s.pc.toNat + 1) = some b1 →
    s.mem.read (s.pc.toNat + 2) = some b2 → s.mem.read (s.pc.toNat + 3) = some b3 →
    decode (if s.cfg.bigEndian then b0 ++ b1 ++ b2 ++ b3 else b3 ++ b2 ++ b1 ++ b0) = .ok i →
    step s = exec i s

/-- The order of R15 steps 1 to 4, before an instruction runs: the end of the run, a misaligned `pc`, a fetch that is not admitted, a fetch of a byte that holds no value, a word that is no instruction.
The spec's own decisions D3, D9, D14, D31, D33; that an ended run and a fetch that is not admitted answer a fault is the model's choice (log 8, 9), and that a fetch of a byte that holds no value
answers R39's fault of a read is the model's inference (log 5, DEDUCED). -/
def Obligations.StepStopsBeforeAnInstructionInThisOrder : Prop :=
  ∀ s : State,
    (s.cfg.haltPc = some s.pc ∧ s.inDelay = false → step s = .fault .runEnded) ∧
    (¬ (s.cfg.haltPc = some s.pc ∧ s.inDelay = false) →
      (¬ Claims.multipleOf4 s.pc → step s = .fault .misalignedFetch) ∧
      (Claims.multipleOf4 s.pc →
        ((∃ k < 4, s.cfg.inCode (s.pc.toNat + k) = false) → step s = .fault .fetchNotAdmitted) ∧
        ((∀ k < 4, s.cfg.inCode (s.pc.toNat + k) = true) →
          ((∃ k < 4, s.mem.read (s.pc.toNat + k) = none) → step s = .fault .readOfUnwrittenMemory) ∧
          (∀ w : Word, (∀ k < 4, s.mem.read (s.pc.toNat + k) = some (byteOf w (if s.cfg.bigEndian then 3 - k else k))) →
            (∀ i, ¬ Claims.reads w i) → step s = .refused (.unknownEncoding w)))))

/-- The load of one instruction word (the model's `withFetchWord`, log 16): from every state whose `pc` is aligned, the next step runs that instruction, in either byte order. -/
def Obligations.PlacedWordIsTheNextInstruction : Prop :=
  ∀ (s : State) (i : Instr), Claims.multipleOf4 s.pc →
    step (s.withFetchWord 32 (encode i).toNat) = exec i (s.withFetchWord 32 (encode i).toNat)

/-- 10_state.md R27, for every value of the parameters: `pc`, `npc`, `in_delay`, `x[0]` and memory after reset. The values the spec fixes by decision only (D4, D29). -/
def Obligations.ResetLeavesWhatTheSpecFixes : Prop :=
  ∀ c : Config, (State.resetWith c).pc = c.resetPc ∧ (State.resetWith c).npc = c.resetPc + 4 ∧ (State.resetWith c).inDelay = false ∧
    (State.resetWith c).readReg 0 = 0 ∧ (∀ a, (State.resetWith c).mem.read a = none) ∧ (State.resetWith c).cfg = c

/-- The state after reset meets the invariant, for all well-formed parameters; `State.reset` is one of them. -/
def Obligations.ResetMeetsTheInvariant : Prop :=
  (∀ c : Config, c.wf = true → (State.resetWith c).Inv) ∧ State.reset.Inv

/-! ### Invariants and whole-machine rules -/

/-- From every state that meets the invariant a step leads to one that meets it: canonical memory, well-formed parameters, `x[0] = 0`, `npc = pc + 4` outside a delay slot
(10_state.md, the invariant after R17), no delay slot without `DELAY_SLOTS` (R14). -/
def Obligations.StepKeepsTheInvariant : Prop :=
  ∀ s t : State, s.Inv → step s = .next t → t.Inv

/-- 20_memory.md R44: no run, from any state, of any length, changes a parameter or a byte of `CodeRegion`. -/
def Obligations.ProgramTextNeverChanges : Prop :=
  ∀ (n : Nat) (s t : State), s.run n = .next t →
    t.cfg = s.cfg ∧ ∀ a : Nat, s.cfg.inCode a = true → t.mem.read a = s.mem.read a

/-- 10_state.md R17: from aligned `pc`, `npc` and `EXC_VECTOR`, only JALR to a misaligned register value and ERET to a misaligned saved address misalign `pc` or `npc`. -/
def Obligations.OnlyJalrAndEretMisalignPc : Prop :=
  ∀ (i : Instr) (s t : State), Claims.multipleOf4 s.pc → Claims.multipleOf4 s.npc → Claims.multipleOf4 s.cfg.excVector →
    exec i s = .next t →
    (∀ rd rs, i = .jalr rd rs → Claims.multipleOf4 (s.readReg rs)) →
    (i = .eret → Claims.multipleOf4 (if s.status.getLsbD 2 then s.errorEpc else s.epc)) →
    Claims.multipleOf4 t.pc ∧ Claims.multipleOf4 t.npc

/-- The frame of the general registers (10_state.md, the table after R11): an instruction changes no general register but its destination, and never `x[0]`. -/
def Obligations.OnlyTheDestinationRegisterChanges : Prop :=
  ∀ (i : Instr) (s t : State) (r : RegNo), exec i s = .next t → Claims.destination i ≠ some r ∨ r = 0 → t.readReg r = s.readReg r

/-- Register 0 (10_state.md R11, the spec's decision D2): it reads 0 whatever the state holds, and an instruction whose destination it is changes no general register. -/
def Obligations.RegisterZeroReadsZeroAndDiscardsWrites : Prop :=
  (∀ s : State, s.readReg 0 = 0) ∧
  ∀ (i : Instr) (s t : State), Claims.destination i = some 0 → exec i s = .next t → t.regs = s.regs

/-- The frame of memory: an instruction other than SB and SH leaves every byte as it was. -/
def Obligations.OnlyStoresChangeMemory : Prop :=
  ∀ (i : Instr) (s t : State), exec i s = .next t → (∀ rt base imm16, i ≠ .sb rt base imm16 ∧ i ≠ .sh rt base imm16) →
    Claims.memoryAsBefore s t

/-- The frame of SB and SH: every byte outside the one or two bytes at the effective address is as it was, also where SH raises. -/
def Obligations.StoresChangeTheirBytesOnly : Prop :=
  ∀ (s t : State) (rt base : RegNo) (imm16 : Half),
    (exec (.sb rt base imm16) s = .next t →
      ∀ a : Nat, a ≠ (s.effAddr base imm16).toNat → t.mem.read a = s.mem.read a) ∧
    (exec (.sh rt base imm16) s = .next t →
      ∀ a : Nat, a ≠ (s.effAddr base imm16).toNat → a ≠ (s.effAddr base imm16).toNat + 1 → t.mem.read a = s.mem.read a)

/-- 10_state.md R12: HI and LO are written by the multiplies, the divides, MTHI and MTLO, each of the last two its own register, and by nothing else. -/
def Obligations.OnlyTheseWriteHiAndLo : Prop :=
  ∀ (i : Instr) (s t : State), exec i s = .next t →
    (t.hi ≠ s.hi → (∃ rs rt, i = .mult rs rt ∨ i = .multu rs rt ∨ i = .div rs rt ∨ i = .divu rs rt) ∨ ∃ rs, i = .mthi rs) ∧
    (t.lo ≠ s.lo → (∃ rs rt, i = .mult rs rt ∨ i = .multu rs rt ∨ i = .div rs rt ∨ i = .divu rs rt) ∨ ∃ rs, i = .mtlo rs)

/-- 10_state.md R12: HI and LO are read by MFHI and MFLO and by nothing else. For any other instruction, other values of HI and LO before it change nothing but HI and LO after it. -/
def Obligations.HiAndLoReachNothingElse : Prop :=
  ∀ (i : Instr) (s : State) (h l : Word), (∀ rd, i ≠ .mfhi rd ∧ i ≠ .mflo rd) →
    Claims.agree (fun t => { t with hi := 0, lo := 0 }) (exec i s) (exec i { s with hi := h, lo := l })

/-- 10_state.md R24: LLbit is changed by ERET alone, which clears it, and no instruction's effect depends on it. -/
def Obligations.LLbitIsClearedByEretAndReadByNothing : Prop :=
  (∀ (i : Instr) (s t : State), exec i s = .next t → t.llbit = if i = .eret then false else s.llbit) ∧
  ∀ (i : Instr) (s : State) (b : Bool),
    Claims.agree (fun t => { t with llbit := false }) (exec i s) (exec i { s with llbit := b })

/-- 10_state.md R18 to R22, the columns "written by": which instructions change each CP0 register. -/
def Obligations.OnlyTheseWriteCp0 : Prop :=
  ∀ (i : Instr) (s t : State), exec i s = .next t →
    (t.status ≠ s.status → i = .eret ∨ (∃ rt, i = .mtc0 rt 12) ∨ Claims.raised s i ≠ none) ∧
    (t.cause ≠ s.cause → (∃ rt, i = .mtc0 rt 13) ∨ Claims.raised s i ≠ none) ∧
    (t.epc ≠ s.epc → (∃ rt, i = .mtc0 rt 14) ∨ Claims.raised s i ≠ none) ∧
    (t.errorEpc ≠ s.errorEpc → ∃ rt, i = .mtc0 rt 30)

/-- 10_state.md R19 (the spec's decision D20): the bits of Status other than EXL and ERL have no effect. For any instruction but MFC0 of Status, other values of them before it change nothing but them after it. -/
def Obligations.OtherStatusBitsHaveNoEffect : Prop :=
  ∀ (i : Instr) (s : State) (v : Word), (∀ rt, i ≠ .mfc0 rt 12) →
    v.getLsbD 1 = s.status.getLsbD 1 → v.getLsbD 2 = s.status.getLsbD 2 →
    Claims.agree (fun t => { t with status := t.status &&& 0x00000006 }) (exec i s) (exec i { s with status := v })

/-- 10_state.md R16, R103: an instruction that is not BGEZ, JALR or ERET and does not raise ends in `advance`, in a delay slot too. -/
def Obligations.OtherInstructionsAdvance : Prop :=
  ∀ (i : Instr) (s t : State), exec i s = .next t → Claims.raised s i = none → i ≠ .eret →
    (∀ rs imm16, i ≠ .bgez rs imm16) → (∀ rd rs, i ≠ .jalr rd rs) →
    t.pc = s.npc ∧ t.npc = s.npc + 4 ∧ t.inDelay = false

/-- 60_exceptions.md R140, R145, R150, R151 together (decisions D21, D23, D24, D25, D26): an instruction that raises takes trap entry, unless it stands in a delay slot or `EXL` or `ERL` is 1, where it is refused;
that the delay slot is tested first is the model's choice (log 10). An instruction that does not raise is never refused for those reasons and never takes trap entry: it leaves EPC
and Cause and does not set EXL, unless it is the MTC0 of that register, and goes on at `npc`, unless it is BGEZ, JALR or ERET. -/
def Obligations.ExactlyTheRaisingInstructionsEnterTheHandler : Prop :=
  ∀ (i : Instr) (s : State),
    (∀ e, Claims.raised s i = some e →
      (s.inDelay = true → exec i s = .refused .exceptionInDelaySlot) ∧
      (s.inDelay = false → s.status.getLsbD 1 = true ∨ s.status.getLsbD 2 = true → exec i s = .refused .nestedException) ∧
      (s.inDelay = false → s.status.getLsbD 1 = false → s.status.getLsbD 2 = false → ∃ t, exec i s = .next t ∧ Claims.entered s t e)) ∧
    (Claims.raised s i = none → exec i s ≠ .refused .exceptionInDelaySlot ∧ exec i s ≠ .refused .nestedException ∧
      ∀ t, exec i s = .next t →
        ((∀ rt, i ≠ .mtc0 rt 14) → t.epc = s.epc) ∧ ((∀ rt, i ≠ .mtc0 rt 13) → t.cause = s.cause) ∧
        ((∀ rt, i ≠ .mtc0 rt 12) → t.status.getLsbD 1 = true → s.status.getLsbD 1 = true) ∧
        ((∀ rs imm16, i ≠ .bgez rs imm16) → (∀ rd rs, i ≠ .jalr rd rs) → i ≠ .eret → t.pc = s.npc))

/-- 43_control.md R104 (decision D4): without delay slots, and outside one, no instruction is refused for standing in one, and none leads into one. -/
def Obligations.WithoutDelaySlotsThereIsNone : Prop :=
  ∀ (i : Instr) (s : State), s.cfg.delaySlots = false → s.inDelay = false →
    exec i s ≠ .refused .controlTransferInDelaySlot ∧ exec i s ≠ .refused .exceptionInDelaySlot ∧
    ∀ t, exec i s = .next t → t.inDelay = false

/-! ### Multiply and divide -/

/-- 40_muldiv.md R70, encoding and operation: `{HI, LO}` is the exact signed product, for all operands; nothing else changes but `pc`, `npc`, `in_delay`, which `advance`. -/
def Obligations.MultLeavesTheSignedProduct : Prop :=
  (∀ w : Word, w &&& 0xFC00FFFF = 0x00000018 → Claims.reads w (.mult (Claims.rs w) (Claims.rt w))) ∧
  ∀ (rs rt : RegNo) (s : State), ∃ t, exec (.mult rs rt) s = .next t ∧
    (t.hi ++ t.lo).toInt = (s.readReg rs).toInt * (s.readReg rt).toInt ∧
    t = { s with hi := t.hi, lo := t.lo, pc := s.npc, npc := s.npc + 4, inDelay := false }

/-- 40_muldiv.md R71, encoding and operation: `{HI, LO}` is the exact unsigned product; `LO` is MULT's; nothing else changes but `pc`, `npc`, `in_delay`, which `advance`. -/
def Obligations.MultuLeavesTheUnsignedProduct : Prop :=
  (∀ w : Word, w &&& 0xFC00FFFF = 0x00000019 → Claims.reads w (.multu (Claims.rs w) (Claims.rt w))) ∧
  ∀ (rs rt : RegNo) (s : State), ∃ t, exec (.multu rs rt) s = .next t ∧
    t.hi.toNat * 2 ^ 32 + t.lo.toNat = (s.readReg rs).toNat * (s.readReg rt).toNat ∧
    (∀ u, exec (.mult rs rt) s = .next u → u.lo = t.lo) ∧
    t = { s with hi := t.hi, lo := t.lo, pc := s.npc, npc := s.npc + 4, inDelay := false }

/-- 40_muldiv.md DIV with a divisor that is not 0: quotient in `LO`, remainder in `HI`, rounded toward zero (the spec's decision D16; log 26); -2^31 by -1 leaves the low 32 bits
of the quotient (the spec's decision D18; log 7). -/
def Obligations.DivLeavesQuotientAndRemainder : Prop :=
  ∀ (rs rt : RegNo) (s : State), s.readReg rt ≠ 0 → ∃ t, exec (.div rs rt) s = .next t ∧
    (¬ (s.readReg rs = 0x80000000 ∧ s.readReg rt = 0xFFFFFFFF) →
      t.lo.toInt * (s.readReg rt).toInt + t.hi.toInt = (s.readReg rs).toInt ∧ t.hi.toInt.natAbs < (s.readReg rt).toInt.natAbs ∧
      (t.hi.toInt = 0 ∨ t.hi.toInt.sign = (s.readReg rs).toInt.sign)) ∧
    (s.readReg rs = 0x80000000 ∧ s.readReg rt = 0xFFFFFFFF → t.lo = 0x80000000 ∧ t.hi = 0) ∧
    t = { s with hi := t.hi, lo := t.lo, pc := s.npc, npc := s.npc + 4, inDelay := false }

/-- 40_muldiv.md DIVU with a divisor that is not 0: the natural-number quotient in `LO` and remainder in `HI`. -/
def Obligations.DivuLeavesQuotientAndRemainder : Prop :=
  ∀ (rs rt : RegNo) (s : State), s.readReg rt ≠ 0 → ∃ t, exec (.divu rs rt) s = .next t ∧
    t.lo.toNat * (s.readReg rt).toNat + t.hi.toNat = (s.readReg rs).toNat ∧ t.hi.toNat < (s.readReg rt).toNat ∧
    t = { s with hi := t.hi, lo := t.lo, pc := s.npc, npc := s.npc + 4, inDelay := false }

/-- 40_muldiv.md, a zero divisor (the spec's decision D17; log 6): DIV and DIVU complete without an exception and write nothing but `HI` and `LO`, about whose values nothing is said. -/
def Obligations.DivisionByZeroCompletes : Prop :=
  ∀ (rs rt : RegNo) (s : State), s.readReg rt = 0 →
    (∃ t, exec (.div rs rt) s = .next t ∧
      t = { s with hi := t.hi, lo := t.lo, pc := s.npc, npc := s.npc + 4, inDelay := false, draws := t.draws }) ∧
    (∃ t, exec (.divu rs rt) s = .next t ∧
      t = { s with hi := t.hi, lo := t.lo, pc := s.npc, npc := s.npc + 4, inDelay := false, draws := t.draws })

/-! ### HI and LO moves -/

/-- 41_hilo.md R83 and R80, encoding and operation: `x[rd]` gets `HI` (`LO`), nothing if `rd = 0`; `HI`, `LO` and everything else is unchanged. That they do so also where nothing has written
`HI` or `LO` is the model's choice (log 3): every register holds a value, and R80's fault on an unwritten one does not occur. -/
def Obligations.MfhiAndMfloCopyToTheRegister : Prop :=
  (∀ w : Word, w &&& 0xFFFF07FF = 0x00000010 → Claims.reads w (.mfhi (Claims.rd w))) ∧
  (∀ w : Word, w &&& 0xFFFF07FF = 0x00000012 → Claims.reads w (.mflo (Claims.rd w))) ∧
  ∀ (rd : RegNo) (s : State),
    (∃ t, exec (.mfhi rd) s = .next t ∧ Claims.onlyRegister s t rd s.hi) ∧
    (∃ t, exec (.mflo rd) s = .next t ∧ Claims.onlyRegister s t rd s.lo)

/-- 41_hilo.md R81 and R82, encoding and operation: `HI` (`LO`) gets `x[rs]` and the other is unchanged, as is everything else. -/
def Obligations.MthiAndMtloCopyFromTheRegister : Prop :=
  (∀ w : Word, w &&& 0xFC1FFFFF = 0x00000011 → Claims.reads w (.mthi (Claims.rs w))) ∧
  (∀ w : Word, w &&& 0xFC1FFFFF = 0x00000013 → Claims.reads w (.mtlo (Claims.rs w))) ∧
  ∀ (rs : RegNo) (s : State),
    exec (.mthi rs) s = .next { s with hi := s.readReg rs, pc := s.npc, npc := s.npc + 4, inDelay := false } ∧
    exec (.mtlo rs) s = .next { s with lo := s.readReg rs, pc := s.npc, npc := s.npc + 4, inDelay := false }

/-! ### Loads and stores -/

/-- 42_loadstore.md R90 and R91, encoding and operation: from an admitted byte that holds a value, LB leaves it sign-extended and LBU zero-extended in `x[rt]`, the address being of the old `x[base]`;
nothing if `rt = 0`; the byte order does not matter. -/
def Obligations.ByteLoadsExtendTheByte : Prop :=
  (∀ w : Word, w &&& 0xFC000000 = 0x80000000 → Claims.reads w (.lb (Claims.rt w) (Claims.rs w) (w.extractLsb' 0 16))) ∧
  (∀ w : Word, w &&& 0xFC000000 = 0x90000000 → Claims.reads w (.lbu (Claims.rt w) (Claims.rs w) (w.extractLsb' 0 16))) ∧
  ∀ (rt base : RegNo) (imm16 : Half) (s : State) (b : Byte),
    Claims.mayLoad s (Claims.address s base imm16).toNat 1 → s.mem.read (Claims.address s base imm16).toNat = some b →
    (∃ t v, exec (.lb rt base imm16) s = .next t ∧ Claims.onlyRegister s t rt v ∧ v.toInt = b.toInt) ∧
    (∃ t v, exec (.lbu rt base imm16) s = .next t ∧ Claims.onlyRegister s t rt v ∧ v.toNat = b.toNat)

/-- 42_loadstore.md LH and LHU at an even address: the halfword in the byte order (20_memory.md, derived from the lanes of the pseudocode, log 27), sign- or zero-extended. -/
def Obligations.HalfwordLoadsExtendTheHalfword : Prop :=
  ∀ (rt base : RegNo) (imm16 : Half) (s : State) (b0 b1 : Byte),
    (Claims.address s base imm16).toNat % 2 = 0 → Claims.mayLoad s (Claims.address s base imm16).toNat 2 →
    s.mem.read (Claims.address s base imm16).toNat = some b0 → s.mem.read ((Claims.address s base imm16).toNat + 1) = some b1 →
    (∃ t v, exec (.lh rt base imm16) s = .next t ∧ Claims.onlyRegister s t rt v ∧
      v.toInt = (Claims.halfValue s.cfg.bigEndian b0 b1 : Int) - (if Claims.halfValue s.cfg.bigEndian b0 b1 < 2 ^ 15 then 0 else 2 ^ 16)) ∧
    (∃ t v, exec (.lhu rt base imm16) s = .next t ∧ Claims.onlyRegister s t rt v ∧
      v.toNat = Claims.halfValue s.cfg.bigEndian b0 b1)

/-- 20_memory.md, admission of loads (decisions D3, D9; the stuck machine answers a fault, log 9): a load that is not admitted faults, and so does one of a byte that holds no value. For LH and LHU
at an even address; an odd one raises before memory is looked at. -/
def Obligations.LoadsOutsideTheMapFault : Prop :=
  ∀ (rt base : RegNo) (imm16 : Half) (s : State),
    (¬ Claims.mayLoad s (Claims.address s base imm16).toNat 1 →
      exec (.lb rt base imm16) s = .fault .loadNotAdmitted ∧ exec (.lbu rt base imm16) s = .fault .loadNotAdmitted) ∧
    (Claims.mayLoad s (Claims.address s base imm16).toNat 1 → s.mem.read (Claims.address s base imm16).toNat = none →
      exec (.lb rt base imm16) s = .fault .readOfUnwrittenMemory ∧ exec (.lbu rt base imm16) s = .fault .readOfUnwrittenMemory) ∧
    ((Claims.address s base imm16).toNat % 2 = 0 → ¬ Claims.mayLoad s (Claims.address s base imm16).toNat 2 →
      exec (.lh rt base imm16) s = .fault .loadNotAdmitted ∧ exec (.lhu rt base imm16) s = .fault .loadNotAdmitted) ∧
    ((Claims.address s base imm16).toNat % 2 = 0 → Claims.mayLoad s (Claims.address s base imm16).toNat 2 →
      s.mem.read (Claims.address s base imm16).toNat = none ∨ s.mem.read ((Claims.address s base imm16).toNat + 1) = none →
      exec (.lh rt base imm16) s = .fault .readOfUnwrittenMemory ∧ exec (.lhu rt base imm16) s = .fault .readOfUnwrittenMemory)

/-- 42_loadstore.md R94, encoding and operation: SB to an admitted byte stores `x[rt][7:0]` there, leaves every other byte, and changes nothing else but `pc`, `npc`, `in_delay`, which `advance`. -/
def Obligations.SbStoresTheLowByte : Prop :=
  (∀ w : Word, w &&& 0xFC000000 = 0xA0000000 → Claims.reads w (.sb (Claims.rt w) (Claims.rs w) (w.extractLsb' 0 16))) ∧
  ∀ (rt base : RegNo) (imm16 : Half) (s : State), Claims.mayStore s (Claims.address s base imm16).toNat 1 →
    ∃ t, exec (.sb rt base imm16) s = .next t ∧
      t.mem.read (Claims.address s base imm16).toNat = some ((s.readReg rt).extractLsb' 0 8) ∧
      (∀ a : Nat, a ≠ (Claims.address s base imm16).toNat → t.mem.read a = s.mem.read a) ∧
      t = { s with mem := t.mem, pc := s.npc, npc := s.npc + 4, inDelay := false }

/-- 42_loadstore.md SH at an even, admitted address: the two low bytes of `x[rt]` in the byte order, every other byte and everything else as before. -/
def Obligations.ShStoresTheLowHalfword : Prop :=
  ∀ (rt base : RegNo) (imm16 : Half) (s : State), (Claims.address s base imm16).toNat % 2 = 0 →
    Claims.mayStore s (Claims.address s base imm16).toNat 2 →
    ∃ t, exec (.sh rt base imm16) s = .next t ∧
      t.mem.read (Claims.address s base imm16).toNat = some ((s.readReg rt).extractLsb' (if s.cfg.bigEndian then 8 else 0) 8) ∧
      t.mem.read ((Claims.address s base imm16).toNat + 1) = some ((s.readReg rt).extractLsb' (if s.cfg.bigEndian then 0 else 8) 8) ∧
      (∀ a : Nat, a ≠ (Claims.address s base imm16).toNat → a ≠ (Claims.address s base imm16).toNat + 1 →
        t.mem.read a = s.mem.read a) ∧
      t = { s with mem := t.mem, pc := s.npc, npc := s.npc + 4, inDelay := false }

/-- 20_memory.md, admission of stores (decisions D9, D10): a store that touches `CodeRegion` is refused, and one outside `DataRegion` is stuck (a fault, log 9). For SH at an even address; that a halfword
with one byte in `CodeRegion` is refused whatever its other byte, outside `DataRegion` too, is the model's inference, since the spec gives no order of the two (log 25, DEDUCED). -/
def Obligations.StoresOutsideDataStop : Prop :=
  ∀ (rt base : RegNo) (imm16 : Half) (s : State),
    (s.cfg.inCode (Claims.address s base imm16).toNat = true → exec (.sb rt base imm16) s = .refused .storeToCode) ∧
    (s.cfg.inCode (Claims.address s base imm16).toNat = false → s.cfg.inData (Claims.address s base imm16).toNat = false →
      exec (.sb rt base imm16) s = .fault .storeNotAdmitted) ∧
    ((Claims.address s base imm16).toNat % 2 = 0 →
      (∃ k < 2, s.cfg.inCode ((Claims.address s base imm16).toNat + k) = true) → exec (.sh rt base imm16) s = .refused .storeToCode) ∧
    ((Claims.address s base imm16).toNat % 2 = 0 →
      (∀ k < 2, s.cfg.inCode ((Claims.address s base imm16).toNat + k) = false) →
      (∃ k < 2, s.cfg.inData ((Claims.address s base imm16).toNat + k) = false) → exec (.sh rt base imm16) s = .fault .storeNotAdmitted)

/-- 20_memory.md R41, R36 (the mixed-width access): a halfword stored at an even address is read back by LHU, in both byte orders, and its byte at the lower address by LBU. -/
def Obligations.StoredHalfwordReadsBack : Prop :=
  ∀ (rt base : RegNo) (imm16 : Half) (s t : State), (Claims.address s base imm16).toNat % 2 = 0 →
    exec (.sh rt base imm16) s = .next t →
    ∀ (rt' base' : RegNo) (imm' : Half), Claims.address t base' imm' = Claims.address s base imm16 → rt' ≠ 0 →
      (∃ u, exec (.lhu rt' base' imm') t = .next u ∧ (u.readReg rt').toNat = (s.readReg rt).toNat % 2 ^ 16) ∧
      (∃ u, exec (.lbu rt' base' imm') t = .next u ∧
        (u.readReg rt').toNat = if s.cfg.bigEndian then (s.readReg rt).toNat / 2 ^ 8 % 2 ^ 8 else (s.readReg rt).toNat % 2 ^ 8)

/-! ### Control transfer -/

/-- 43_control.md BGEZ outside a delay slot, in both variants of `DELAY_SLOTS` (decision D4); the target's base is `pc + 4` (log 15). Taken iff `s(x[rs]) >= 0`. -/
def Obligations.BgezBranchesOnTheSign : Prop :=
  ∀ (rs : RegNo) (imm16 : Half) (s : State), s.inDelay = false →
    ∃ t target, exec (.bgez rs imm16) s = .next t ∧ target = BitVec.ofInt 32 (s.pc.toNat + 4 + 4 * imm16.toInt) ∧
      (0 ≤ (s.readReg rs).toInt → s.cfg.delaySlots = true → t = { s with pc := s.npc, npc := target, inDelay := true }) ∧
      (0 ≤ (s.readReg rs).toInt → s.cfg.delaySlots = false → t = { s with pc := target, npc := target + 4 }) ∧
      ((s.readReg rs).toInt < 0 → t = { s with pc := s.npc, npc := s.npc + 4, inDelay := s.cfg.delaySlots })

/-- 43_control.md JALR outside a delay slot, in both variants (decisions D4, D5, D40): control to the old `x[rs]`, the link in `x[rd]`, none if `rd = 0`. -/
def Obligations.JalrJumpsAndLinks : Prop :=
  ∀ (rd rs : RegNo) (s : State), s.inDelay = false →
    ∃ t, exec (.jalr rd rs) s = .next t ∧
      t.readReg rd = (if rd = 0 then 0 else if s.cfg.delaySlots then s.pc + 8 else s.pc + 4) ∧
      (∀ q, q ≠ rd → t.readReg q = s.readReg q) ∧
      (s.cfg.delaySlots = true → t = { s with regs := t.regs, pc := s.npc, npc := s.readReg rs, inDelay := true }) ∧
      (s.cfg.delaySlots = false → t = { s with regs := t.regs, pc := s.readReg rs, npc := s.readReg rs + 4 })

/-- 43_control.md R103, 10_state.md R16 (the spec's device D4): with delay slots, from a state outside one, the instruction after a BGEZ or a JALR runs once, and the instruction after that is the one at
the target, or the one at `pc + 8` after a BGEZ not taken. -/
def Obligations.TheDelaySlotRunsOnceBeforeTheTarget : Prop :=
  ∀ s t u : State, s.cfg.delaySlots = true → s.inDelay = false → s.npc = s.pc + 4 → step t = .next u →
    (∀ rs imm16, exec (.bgez rs imm16) s = .next t →
      t.pc = s.pc + 4 ∧ t.inDelay = true ∧ u.inDelay = false ∧
      u.pc = if 0 ≤ (s.readReg rs).toInt then BitVec.ofInt 32 (s.pc.toNat + 4 + 4 * imm16.toInt) else s.pc + 8) ∧
    (∀ rd rs, exec (.jalr rd rs) s = .next t →
      t.pc = s.pc + 4 ∧ t.inDelay = true ∧ u.inDelay = false ∧ u.pc = s.readReg rs)

/-- 10_state.md R15 step 6 (decision D26): BGEZ, JALR and ERET in a delay slot are refused, and no other instruction is refused for that reason. -/
def Obligations.ControlTransfersInADelaySlotAreRefused : Prop :=
  ∀ (i : Instr) (s : State),
    exec i s = .refused .controlTransferInDelaySlot ↔
      s.inDelay = true ∧ ((∃ rs imm16, i = .bgez rs imm16) ∨ (∃ rd rs, i = .jalr rd rs) ∨ i = .eret)

/-! ### Exceptions and CP0 -/

/-- 44_trap.md BREAK and SYSCALL, and TEQ on equal operands, outside a delay slot with `EXL = 0` and `ERL = 0`: trap entry (60_exceptions.md R145; decisions D21, D22, D24). -/
def Obligations.BreakSyscallAndTeqTrap : Prop :=
  ∀ s : State, s.inDelay = false → s.status.getLsbD 1 = false → s.status.getLsbD 2 = false →
    (∃ t, exec .brk s = .next t ∧ Claims.entered s t .breakpoint) ∧
    (∃ t, exec .syscall s = .next t ∧ Claims.entered s t .systemCall) ∧
    (∀ rs rt, s.readReg rs = s.readReg rt → ∃ t, exec (.teq rs rt) s = .next t ∧ Claims.entered s t .trap)

/-- 44_trap.md R112: TEQ on different operands does nothing but `advance`, in every state. -/
def Obligations.TeqOnDifferentOperandsOnlyAdvances : Prop :=
  ∀ (rs rt : RegNo) (s : State), s.readReg rs ≠ s.readReg rt →
    exec (.teq rs rt) s = .next { s with pc := s.npc, npc := s.npc + 4, inDelay := false }

/-- 60_exceptions.md, the address errors (decision D23: they too save `pc + 4`): LH, LHU and SH at an odd address take trap entry, whatever the address; no register but CP0's and no byte of memory changes. -/
def Obligations.OddHalfwordAddressesTrap : Prop :=
  ∀ (rt base : RegNo) (imm16 : Half) (s : State), (Claims.address s base imm16).toNat % 2 = 1 → s.inDelay = false →
    s.status.getLsbD 1 = false → s.status.getLsbD 2 = false →
    (∃ t, exec (.lh rt base imm16) s = .next t ∧ Claims.entered s t .addressErrorLoad) ∧
    (∃ t, exec (.lhu rt base imm16) s = .next t ∧ Claims.entered s t .addressErrorLoad) ∧
    (∃ t, exec (.sh rt base imm16) s = .next t ∧ Claims.entered s t .addressErrorStore)

/-- 45_cp0.md ERET outside a delay slot: with `ERL = 1` it clears bit 2 of Status and goes to ErrorEPC, else it clears bit 1 and goes to EPC; `LLbit` is cleared; nothing else changes. -/
def Obligations.EretReturnsToTheSavedAddress : Prop :=
  ∀ s : State, s.inDelay = false →
    (s.status.getLsbD 2 = true → exec .eret s =
      .next { s with pc := s.errorEpc, npc := s.errorEpc + 4, status := s.status &&& 0xFFFFFFFB, llbit := false }) ∧
    (s.status.getLsbD 2 = false → exec .eret s =
      .next { s with pc := s.epc, npc := s.epc + 4, status := s.status &&& 0xFFFFFFFD, llbit := false })

/-- 60_exceptions.md R149: an exception and the ERET of a minimal handler together lead to the instruction after the one that raised, with Status as it was before the exception, every general register, HI, LO and memory too. -/
def Obligations.ExceptionThenEretResumesAfterTheInstruction : Prop :=
  ∀ (i : Instr) (e : Exc) (s t : State), Claims.raised s i = some e → exec i s = .next t →
    ∃ u, exec .eret t = .next u ∧
      u = { s with pc := s.pc + 4, npc := s.pc + 8, epc := s.pc + 4, cause := u.cause, llbit := false }

/-- 45_cp0.md MFC0 of the four CP0 registers (numbers: decision D19; log 12): `x[rt]` gets all 32 bits. -/
def Obligations.Mfc0ReadsTheFourRegisters : Prop :=
  ∀ (rt : RegNo) (s : State),
    (∃ t, exec (.mfc0 rt 12) s = .next t ∧ Claims.onlyRegister s t rt s.status) ∧
    (∃ t, exec (.mfc0 rt 13) s = .next t ∧ Claims.onlyRegister s t rt s.cause) ∧
    (∃ t, exec (.mfc0 rt 14) s = .next t ∧ Claims.onlyRegister s t rt s.epc) ∧
    (∃ t, exec (.mfc0 rt 30) s = .next t ∧ Claims.onlyRegister s t rt s.errorEpc)

/-- 45_cp0.md MTC0 to the four CP0 registers (decisions D19, D20; log 12): all 32 bits are written, and nothing else. -/
def Obligations.Mtc0WritesTheFourRegisters : Prop :=
  ∀ (rt : RegNo) (s : State),
    exec (.mtc0 rt 12) s = .next { s with status := s.readReg rt, pc := s.npc, npc := s.npc + 4, inDelay := false } ∧
    exec (.mtc0 rt 13) s = .next { s with cause := s.readReg rt, pc := s.npc, npc := s.npc + 4, inDelay := false } ∧
    exec (.mtc0 rt 14) s = .next { s with epc := s.readReg rt, pc := s.npc, npc := s.npc + 4, inDelay := false } ∧
    exec (.mtc0 rt 30) s = .next { s with errorEpc := s.readReg rt, pc := s.npc, npc := s.npc + 4, inDelay := false }

/-- 45_cp0.md, the other numbers (decision D19): MFC0 and MTC0 of them are refused by name, and of the four never. -/
def Obligations.UnknownCp0RegistersAreRefused : Prop :=
  ∀ (rt rd : RegNo) (s : State),
    (exec (.mfc0 rt rd) s = .refused (.unknownCp0Register rd) ↔ rd ≠ 12 ∧ rd ≠ 13 ∧ rd ≠ 14 ∧ rd ≠ 30) ∧
    (exec (.mtc0 rt rd) s = .refused (.unknownCp0Register rd) ↔ rd ≠ 12 ∧ rd ≠ 13 ∧ rd ≠ 14 ∧ rd ≠ 30)

/-- 70_reset_and_hazards.md R177 (decisions D20, D30), what MTC0 writes: the next MFC0 reads it whole; the next ERET uses a just-written EPC, ErrorEPC and Status, whose ERL chooses between the two and whose bit it clears;
and the next instruction, where it raises, tests the EXL and ERL of a just-written Status. Registers other than the one written are as before MTC0. -/
def Obligations.Mtc0IsSeenByTheNextInstruction : Prop :=
  ∀ (rt rd : RegNo) (s t : State) (status epc errorEpc : Word), exec (.mtc0 rt rd) s = .next t →
    status = (if rd = 12 then s.readReg rt else s.status) → epc = (if rd = 14 then s.readReg rt else s.epc) →
    errorEpc = (if rd = 30 then s.readReg rt else s.errorEpc) →
    (∀ rt', ∃ u, exec (.mfc0 rt' rd) t = .next u ∧ u.readReg rt' = if rt' = 0 then 0 else s.readReg rt) ∧
    (∃ u, exec .eret t = .next u ∧ u.pc = (if status.getLsbD 2 then errorEpc else epc) ∧
      u.status = status &&& (if status.getLsbD 2 then 0xFFFFFFFB else 0xFFFFFFFD)) ∧
    ∀ i e, Claims.raised t i = some e →
      (status.getLsbD 1 = true ∨ status.getLsbD 2 = true → exec i t = .refused .nestedException) ∧
      (status.getLsbD 1 = false → status.getLsbD 2 = false → ∃ u, exec i t = .next u ∧ Claims.entered t u e)

/-! ### Count leading zeros -/

/-- 46_clz.md R130, encoding and operation: `x[rd]` gets the number `n` of zero bits above the highest one bit of `x[rs]`, 32 if there is none. -/
def Obligations.ClzCountsTheLeadingZeros : Prop :=
  (∀ w : Word, w &&& 0xFC0007FF = 0x70000020 → Claims.reads w (.clz (Claims.rd w) (Claims.rs w))) ∧
  ∀ (rd rs : RegNo) (s : State), ∃ t v, exec (.clz rd rs) s = .next t ∧ Claims.onlyRegister s t rd v ∧
    v.toNat ≤ 32 ∧ (∀ k < v.toNat, (s.readReg rs).getLsbD (31 - k) = false) ∧
    (v.toNat < 32 → (s.readReg rs).getLsbD (31 - v.toNat) = true)

/-! ### CP0 one instruction after trap entry and after ERET -/

/-- 70_reset_and_hazards.md R177 (decision D30), what trap entry and ERET write. After trap entry MFC0 reads the new EPC, the code in Cause and EXL = 1 in Status, and an instruction that raises is refused (decision D25). After ERET
MFC0 reads Status with the bit cleared, and an instruction that raises is refused if EXL is still 1, which it is only after a return with ERL and EXL both 1, else it takes trap entry. -/
def Obligations.TrapEntryAndEretAreSeenByTheNextInstruction : Prop :=
  (∀ (i : Instr) (e : Exc) (s t : State), Claims.raised s i = some e → exec i s = .next t →
    (∀ rt, rt ≠ 0 →
      (∃ u, exec (.mfc0 rt 14) t = .next u ∧ u.readReg rt = s.pc + 4) ∧
      (∃ u, exec (.mfc0 rt 13) t = .next u ∧ ((u.readReg rt).extractLsb' 2 5).toNat = Claims.code e) ∧
      (∃ u, exec (.mfc0 rt 12) t = .next u ∧ (u.readReg rt).getLsbD 1 = true)) ∧
    ∀ j f, Claims.raised t j = some f → exec j t = .refused .nestedException) ∧
  ∀ s t : State, exec .eret s = .next t →
    (∀ rt, rt ≠ 0 → ∃ u, exec (.mfc0 rt 12) t = .next u ∧
      u.readReg rt = s.status &&& (if s.status.getLsbD 2 then 0xFFFFFFFB else 0xFFFFFFFD)) ∧
    ∀ j f, Claims.raised t j = some f →
      (s.status.getLsbD 1 = true ∧ s.status.getLsbD 2 = true → exec j t = .refused .nestedException) ∧
      (¬ (s.status.getLsbD 1 = true ∧ s.status.getLsbD 2 = true) → ∃ u, exec j t = .next u ∧ Claims.entered t u f)
end

