-- ==== Sys2Proof/Laws/Clz.lean ====
section
/-! SUPPORT. What the loop of CLZ counts (46_clz.md R130). -/

namespace Sys2Proof.Machine

/-- With all bits from `n` up 0, the loop from `n` gives the number of zero bits above the highest one bit. -/
theorem leadingZeros_spec (v : Word) : ∀ n ≤ 32, (∀ k, n ≤ k → k < 32 → v.getLsbD k = false) →
    leadingZeros v n ≤ 32 ∧ (∀ k < leadingZeros v n, v.getLsbD (31 - k) = false) ∧
      (leadingZeros v n < 32 → v.getLsbD (31 - leadingZeros v n) = true) := by
  intro n
  induction n with
  | zero =>
    intro _ h
    exact ⟨le_refl _, fun k hk => h _ (by omega) (by omega), fun h => by simp [leadingZeros] at h⟩
  | succ n ih =>
    intro hn h
    rw [leadingZeros]
    split
    · rename_i hb
      refine ⟨by omega, fun k hk => h _ (by omega) (by omega), fun _ => ?_⟩
      rw [show 31 - (31 - n) = n by omega]; exact hb
    · rename_i hb
      refine ih (by omega) fun k h1 h2 => ?_
      by_cases e : k = n
      · subst e; simpa using hb
      · exact h k (by omega) h2

end Sys2Proof.Machine
end

