-- ==== Sys2Proof/Laws/Decode.lean ====
section
/-! SUPPORT. Words by their fields, the rows of the opcode table are pairwise disjoint, and bytes of joined words. -/

namespace Sys2Proof

/-! ### Fields of packed words -/

@[simp] theorem rsField_packR (op : BitVec 6) (rs rt rd sa : RegNo) (f : BitVec 6) : rsField (packR op rs rt rd sa f) = rs := by
  unfold rsField packR; ext i hi; interval_cases i <;> simp

@[simp] theorem rtField_packR (op : BitVec 6) (rs rt rd sa : RegNo) (f : BitVec 6) : rtField (packR op rs rt rd sa f) = rt := by
  unfold rtField packR; ext i hi; interval_cases i <;> simp

@[simp] theorem rdField_packR (op : BitVec 6) (rs rt rd sa : RegNo) (f : BitVec 6) : rdField (packR op rs rt rd sa f) = rd := by
  unfold rdField packR; ext i hi; interval_cases i <;> simp

@[simp] theorem opField_packR (op : BitVec 6) (rs rt rd sa : RegNo) (f : BitVec 6) :
    (packR op rs rt rd sa f).extractLsb' 26 6 = op := by
  unfold packR; ext i hi; interval_cases i <;> simp

@[simp] theorem saField_packR (op : BitVec 6) (rs rt rd sa : RegNo) (f : BitVec 6) :
    (packR op rs rt rd sa f).extractLsb' 6 5 = sa := by
  unfold packR; ext i hi; interval_cases i <;> simp

@[simp] theorem functField_packR (op : BitVec 6) (rs rt rd sa : RegNo) (f : BitVec 6) :
    (packR op rs rt rd sa f).extractLsb' 0 6 = f := by
  unfold packR; ext i hi; interval_cases i <;> simp

@[simp] theorem rsField_packI (op : BitVec 6) (rs rt : RegNo) (imm16 : Half) : rsField (packI op rs rt imm16) = rs := by
  unfold rsField packI; ext i hi; interval_cases i <;> simp

@[simp] theorem rtField_packI (op : BitVec 6) (rs rt : RegNo) (imm16 : Half) : rtField (packI op rs rt imm16) = rt := by
  unfold rtField packI; ext i hi; interval_cases i <;> simp

@[simp] theorem immField_packI (op : BitVec 6) (rs rt : RegNo) (imm16 : Half) : immField (packI op rs rt imm16) = imm16 := by
  unfold immField packI; ext i hi; interval_cases i <;> simp

/-- Two words that agree on the six fields of R51 are equal. -/
theorem eq_of_fields {v w : Word} (hop : v.extractLsb' 26 6 = w.extractLsb' 26 6) (hrs : rsField v = rsField w)
    (hrt : rtField v = rtField w) (hrd : rdField v = rdField w) (hsa : v.extractLsb' 6 5 = w.extractLsb' 6 5)
    (hf : v.extractLsb' 0 6 = w.extractLsb' 0 6) : v = w := by
  unfold rsField rtField rdField at *
  apply BitVec.eq_of_getLsbD_eq
  intro i hi
  have bit {n l : Nat} (h : v.extractLsb' n l = w.extractLsb' n l) (h1 : n ≤ i) (h2 : i < n + l) :
      v.getLsbD i = w.getLsbD i := by
    have := congrArg (fun x => x.getLsbD (i - n)) h
    simpa [BitVec.getLsbD_extractLsb', show i - n < l by omega, show n + (i - n) = i by omega] using this
  rcases (by omega : i < 6 ∨ (6 ≤ i ∧ i < 11) ∨ (11 ≤ i ∧ i < 16) ∨ (16 ≤ i ∧ i < 21) ∨ (21 ≤ i ∧ i < 26) ∨ 26 ≤ i)
    with h | h | h | h | h | h
  · exact bit hf (by omega) (by omega)
  · exact bit hsa (by omega) (by omega)
  · exact bit hrd (by omega) (by omega)
  · exact bit hrt (by omega) (by omega)
  · exact bit hrs (by omega) (by omega)
  · exact bit hop (by omega) (by omega)

/-- A field of a masked word is the masked field. -/
theorem extract_and (v w : Word) (n l : Nat) : (v &&& w).extractLsb' n l = v.extractLsb' n l &&& w.extractLsb' n l := by
  ext i hi; simp

/-- Every word is the packing of its six fields. -/
theorem packR_fields (w : Word) :
    packR (w.extractLsb' 26 6) (rsField w) (rtField w) (rdField w) (w.extractLsb' 6 5) (w.extractLsb' 0 6) = w :=
  eq_of_fields (by simp) (by simp) (by simp) (by simp) (by simp) (by simp)

/-- Masking works field by field. -/
theorem packR_and (a a' : BitVec 6) (b b' c c' d d' e e' : RegNo) (f f' : BitVec 6) :
    packR a b c d e f &&& packR a' b' c' d' e' f' =
      packR (a &&& a') (b &&& b') (c &&& c') (d &&& d') (e &&& e') (f &&& f') := by
  have hs := rsField_packR; have ht := rtField_packR; have hd := rdField_packR
  unfold rsField at hs; unfold rtField at ht; unfold rdField at hd
  apply eq_of_fields <;> (try unfold rsField) <;> (try unfold rtField) <;> (try unfold rdField) <;>
    simp [extract_and, hs, ht, hd]

/-- An immediate format by its six fields. -/
theorem packI_eq_packR (op : BitVec 6) (rs rt : RegNo) (imm16 : Half) :
    packI op rs rt imm16 = packR op rs rt (imm16.extractLsb' 11 5) (imm16.extractLsb' 6 5) (imm16.extractLsb' 0 6) := by
  apply eq_of_fields
  · rw [opField_packR]; unfold packI; ext i hi; interval_cases i <;> simp
  · simp
  · simp
  · rw [rdField_packR]; unfold packI rdField; ext i hi; interval_cases i <;> simp
  · rw [saField_packR]; unfold packI; ext i hi; interval_cases i <;> simp
  · rw [functField_packR]; unfold packI; ext i hi; interval_cases i <;> simp

/-- Masking with any word works field by field. -/
theorem packR_and_word (a : BitVec 6) (b c d e : RegNo) (f : BitVec 6) (m : Word) :
    packR a b c d e f &&& m = packR (a &&& m.extractLsb' 26 6) (b &&& rsField m) (c &&& rtField m) (d &&& rdField m)
      (e &&& m.extractLsb' 6 5) (f &&& m.extractLsb' 0 6) := by
  conv_lhs => rw [← packR_fields m]
  exact packR_and ..

/-- Two packed words are equal iff their fields are. -/
theorem packR_inj {a a' : BitVec 6} {b b' c c' d d' e e' : RegNo} {f f' : BitVec 6} :
    packR a b c d e f = packR a' b' c' d' e' f' ↔ a = a' ∧ b = b' ∧ c = c' ∧ d = d' ∧ e = e' ∧ f = f' := by
  constructor
  · intro h
    have h1 := congrArg (fun w => w.extractLsb' 26 6) h
    have h2 := congrArg rsField h
    have h3 := congrArg rtField h
    have h4 := congrArg rdField h
    have h5 := congrArg (fun w => w.extractLsb' 6 5) h
    have h6 := congrArg (fun w => w.extractLsb' 0 6) h
    simp at h1 h2 h3 h4 h5 h6
    exact ⟨h1, h2, h3, h4, h5, h6⟩
  · rintro ⟨rfl, rfl, rfl, rfl, rfl, rfl⟩; rfl

/-! ### The rows of the table -/

@[simp] theorem fits_iff {r : Row} {w : Word} : r.fits w = true ↔ w &&& r.mask = r.pattern := by simp [Row.fits]

/-- Two rows that some word matches both agree on the bits both fix (R59). -/
theorem patterns_agree {a b : Row} {w : Word} (ha : a.fits w = true) (hb : b.fits w = true) :
    a.pattern &&& b.mask = b.pattern &&& a.mask := by
  rw [fits_iff] at ha hb
  rw [← ha, ← hb, BitVec.and_assoc, BitVec.and_assoc, BitVec.and_comm a.mask]

/-- For every two rows there is a bit fixed in both and different (R59). -/
theorem patterns_differ : rows.Pairwise fun a b => a.pattern &&& b.mask ≠ b.pattern &&& a.mask := by decide

/-- In a list of pairwise different patterns the row that fits is the row found. -/
theorem find_fits {l : List Row} (hl : l.Pairwise fun a b => a.pattern &&& b.mask ≠ b.pattern &&& a.mask) {r : Row} {w : Word}
    (hr : r ∈ l) (hw : r.fits w = true) : (l.find? fun r => r.fits w) = some r := by
  induction l with
  | nil => cases hr
  | cons a l ih =>
    obtain ⟨ha, hl⟩ := List.pairwise_cons.1 hl
    by_cases h : a.fits w = true
    · rcases List.mem_cons.1 hr with rfl | hr
      · simp [h]
      · exact absurd (patterns_agree h hw) (ha r hr)
    · rcases List.mem_cons.1 hr with rfl | hr
      · exact absurd hw h
      · simpa [List.find?_cons, Bool.eq_false_iff.2 h] using ih hl hr

/-- A word that fits a row decodes to the row's instruction (R61). -/
theorem decode_of_fits {r : Row} {w : Word} (hr : r ∈ rows) (hw : r.fits w = true) : decode w = .ok (r.build w) := by
  unfold decode; rw [find_fits patterns_differ hr hw]

/-- A decoded word fits a row, and the instruction is the row's (R61). -/
theorem fits_of_decode {w : Word} {i : Instr} (h : decode w = .ok i) : ∃ r ∈ rows, r.fits w = true ∧ r.build w = i := by
  unfold decode at h
  split at h
  · rename_i r hr
    exact ⟨r, List.mem_of_find?_eq_some hr, by simpa using List.find?_some hr, by simpa using h⟩
  · cases h

/-! ### Bytes -/

@[simp] theorem byteOf_halfOf_low (hi lo : Byte) : byteOf (halfOf hi lo) 0 = lo := by
  unfold byteOf halfOf; ext i h; interval_cases i <;> simp

@[simp] theorem byteOf_halfOf_high (hi lo : Byte) : byteOf (halfOf hi lo) 1 = hi := by
  unfold byteOf halfOf; ext i h; interval_cases i <;> simp

/-- A halfword is its two bytes. -/
@[simp] theorem halfOf_bytes (h : Half) : halfOf (byteOf h 1) (byteOf h 0) = h := by
  unfold byteOf halfOf; ext i hi; interval_cases i <;> simp

/-- A word is its four bytes. -/
@[simp] theorem wordOf_bytes (w : Word) : wordOf (byteOf w 3) (byteOf w 2) (byteOf w 1) (byteOf w 0) = w := by
  unfold byteOf wordOf; ext i hi; interval_cases i <;> simp

/-- A word of four bytes as their concatenation, most significant first (R6, R33). -/
theorem wordOf_eq_append (b3 b2 b1 b0 : Byte) : wordOf b3 b2 b1 b0 = b3 ++ b2 ++ b1 ++ b0 := by
  apply BitVec.eq_of_toNat_eq
  have h0 := b0.isLt; have h1 := b1.isLt; have h2 := b2.isLt; have h3 := b3.isLt
  have e : (b3 ++ b2 ++ b1 ++ b0).toNat =
      ((b3.toNat <<< 8 ||| b2.toNat) <<< 8 ||| b1.toNat) <<< 8 ||| b0.toNat := by
    rw [BitVec.toNat_append, BitVec.toNat_append, BitVec.toNat_append]
  show (wordOf b3 b2 b1 b0).toNat = (b3 ++ b2 ++ b1 ++ b0).toNat
  rw [e, wordOf]
  simp only [BitVec.toNat_or, BitVec.toNat_shiftLeft, BitVec.toNat_setWidth, Nat.shiftLeft_eq]
  rw [Nat.mod_eq_of_lt (a := b0.toNat) (by omega), Nat.mod_eq_of_lt (a := b1.toNat) (by omega),
    Nat.mod_eq_of_lt (a := b2.toNat) (by omega), Nat.mod_eq_of_lt (a := b3.toNat) (by omega),
    Nat.mod_eq_of_lt (a := b1.toNat * 2 ^ 8) (by omega), Nat.mod_eq_of_lt (a := b2.toNat * 2 ^ 16) (by omega),
    Nat.mod_eq_of_lt (a := b3.toNat * 2 ^ 24) (by omega)]
  simp only [← Nat.shiftLeft_eq, Nat.shiftLeft_or_distrib, ← Nat.shiftLeft_add]

/-- The value of a halfword of two bytes (R33). -/
theorem halfOf_toNat (hi lo : Byte) : (halfOf hi lo).toNat = hi.toNat * 256 + lo.toNat := by
  have h0 := lo.isLt; have h1 := hi.isLt
  rw [halfOf]
  simp only [BitVec.toNat_or, BitVec.toNat_shiftLeft, BitVec.toNat_setWidth]
  rw [Nat.mod_eq_of_lt (a := lo.toNat) (by omega), Nat.mod_eq_of_lt (a := hi.toNat) (by omega), Nat.shiftLeft_eq,
    Nat.mod_eq_of_lt (by omega), ← Nat.shiftLeft_eq, ← Nat.shiftLeft_add_eq_or_of_lt h0, Nat.shiftLeft_eq]

@[simp] theorem splitHalf_length (big : Bool) (h : Half) : (splitHalf big h).length = 2 := by cases big <;> rfl

@[simp] theorem splitWord_length (big : Bool) (w : Word) : (splitWord big w).length = 4 := by cases big <;> rfl

end Sys2Proof
end

