-- ==== Sys2Proof/Laws/Flags.lean ====
section
/-! SUPPORT. The status fields bit by bit: what each update of CP0.Status and CP0.Cause does to every bit (R19, R20, R120, R145). -/

namespace Sys2Proof.Machine

theorem exlBit_bit : ∀ k < 32, exlBit.getLsbD k = decide (k = 1) := by decide
theorem erlBit_bit : ∀ k < 32, erlBit.getLsbD k = decide (k = 2) := by decide
theorem excCodeBits_bit : ∀ k < 32, excCodeBits.getLsbD k = decide (2 ≤ k ∧ k ≤ 6) := by decide

/-- `setExl` sets bit 1 and no other bit. -/
theorem setExl_bit (v : Word) {k : Nat} (hk : k < 32) : (setExl v).getLsbD k = (v.getLsbD k || decide (k = 1)) := by
  rw [setExl, BitVec.getLsbD_or, exlBit_bit k hk]

/-- `clearExl` clears bit 1 and no other bit. -/
theorem clearExl_bit (v : Word) {k : Nat} (hk : k < 32) : (clearExl v).getLsbD k = (v.getLsbD k && decide (k ≠ 1)) := by
  rw [clearExl, BitVec.getLsbD_and, BitVec.getLsbD_not, exlBit_bit k hk]; simp [hk]

/-- `clearErl` clears bit 2 and no other bit. -/
theorem clearErl_bit (v : Word) {k : Nat} (hk : k < 32) : (clearErl v).getLsbD k = (v.getLsbD k && decide (k ≠ 2)) := by
  rw [clearErl, BitVec.getLsbD_and, BitVec.getLsbD_not, erlBit_bit k hk]; simp [hk]

/-- `setExcCode` writes the code to bits 6..2 and keeps every other bit. -/
theorem setExcCode_bit (v : Word) (c : BitVec 5) {k : Nat} (hk : k < 32) :
    (setExcCode v c).getLsbD k = if 2 ≤ k ∧ k ≤ 6 then c.getLsbD (k - 2) else v.getLsbD k := by
  rw [setExcCode, BitVec.getLsbD_or, BitVec.getLsbD_and, BitVec.getLsbD_not, excCodeBits_bit k hk]
  split
  · rename_i h
    simp [h, hk, show ¬ k < 2 by omega]
  · rename_i h
    have : c.getLsbD (k - 2) = false ∨ k < 2 := by
      by_cases h2 : k < 2
      · exact .inr h2
      · exact .inl (BitVec.getLsbD_of_ge _ _ (by omega))
    rcases this with e | e <;> simp [e, h, hk]

/-- The code is read back from bits 6..2. -/
@[simp] theorem excCode_setExcCode (v : Word) (c : BitVec 5) : (setExcCode v c).extractLsb' 2 5 = c := by
  ext i hi
  rw [BitVec.getElem_extractLsb', setExcCode_bit v c (by omega), if_pos (by omega)]
  simp [BitVec.getLsbD_eq_getElem hi]

/-- Setting EXL and clearing it gives the word back where EXL was 0. -/
theorem clearExl_setExl {v : Word} (h : v.getLsbD 1 = false) : clearExl (setExl v) = v := by
  apply BitVec.eq_of_getLsbD_eq
  intro k hk
  rw [clearExl_bit _ hk, setExl_bit _ hk]
  by_cases e : k = 1
  · subst e; simpa using h.symm
  · simp [e]

end Sys2Proof.Machine
end

