-- ==== Sys2Proof/Laws/Memory.lean ====
section
/-! SUPPORT. Memory: read after write, what a write leaves alone, and that every memory operation keeps the canonical form. -/

namespace Sys2Proof.Machine

@[simp] theorem Memory.read_nil (a : Nat) : Memory.read [] a = none := rfl

@[simp] theorem Memory.read_cell (k : Nat) (v : Byte) (m : Memory) (a : Nat) :
    Memory.read ((k, v) :: m) a = if a = k then some v else m.read a := rfl

/-- Every byte is listed, since an unlisted address holds no value (log 5). -/
@[simp] theorem Memory.cons_eq (a : Nat) (v : Byte) (m : Memory) : Memory.cons a v m = (a, v) :: m := by
  simp [Memory.cons, Memory.unlisted]

/-- Read after write: the byte written, and every other byte as before (R34). -/
theorem Memory.read_write (m : Memory) (a : Nat) (v : Byte) (b : Nat) :
    (m.write a v).read b = if b = a then some v else m.read b := by
  induction m with
  | nil => simp [Memory.write]
  | cons c m ih =>
    obtain ⟨k, w⟩ := c
    simp only [Memory.write, Memory.cons_eq]
    split
    · simp
    · split
      · rename_i h; subst h; by_cases hb : b = a <;> simp [hb]
      · rename_i _ h
        simp only [Memory.read_cell, ih]
        by_cases hk : b = k
        · subst hk
          simp [Ne.symm h]
        · simp [hk]

/-- Bytes written from `a` up leave every address below `a` as it was. -/
theorem Memory.read_writeBytes_below (m : Memory) (a : Nat) (bs : List Byte) (b : Nat) (h : b < a) :
    (m.writeBytes a bs).read b = m.read b := by
  induction bs generalizing m a with
  | nil => rfl
  | cons x bs ih =>
    rw [Memory.writeBytes, ih _ _ (by omega), Memory.read_write, if_neg (by omega)]

/-- Bytes written from `a` up read back, and every other address is as it was. -/
theorem Memory.read_writeBytes (m : Memory) (a : Nat) (bs : List Byte) (b : Nat) :
    (m.writeBytes a bs).read b = if a ≤ b ∧ b < a + bs.length then bs[b - a]? else m.read b := by
  induction bs generalizing m a with
  | nil => simp only [Memory.writeBytes, List.length_nil]; rw [if_neg (by omega)]
  | cons x bs ih =>
    rw [Memory.writeBytes, ih, Memory.read_write, List.length_cons]
    by_cases hb : b = a
    · subst hb; simp
    · by_cases h1 : a + 1 ≤ b ∧ b < a + 1 + bs.length
      · rw [if_pos h1, if_pos (by omega)]
        obtain ⟨d, rfl⟩ : ∃ d, b = a + 1 + d := ⟨b - (a + 1), by omega⟩
        have e1 : a + 1 + d - a = d + 1 := by omega
        simp [e1]
      · rw [if_neg h1, if_neg hb, if_neg (by omega)]

/-- The keys of a written memory: the written address, or an old one. -/
theorem Memory.mem_write {m : Memory} {a : Nat} {v : Byte} {c : Host.Cell} (h : c ∈ m.write a v) :
    c = (a, v) ∨ c ∈ m := by
  induction m with
  | nil => simpa [Memory.write] using h
  | cons d m ih =>
    obtain ⟨k, w⟩ := d
    simp only [Memory.write, Memory.cons_eq] at h
    split at h
    · simpa using h
    · split at h
      · rcases List.mem_cons.1 h with h | h
        · exact .inl h
        · exact .inr (List.mem_cons_of_mem _ h)
      · rcases List.mem_cons.1 h with h | h
        · exact .inr (h ▸ List.mem_cons_self)
        · exact (ih h).imp id (List.mem_cons_of_mem _)

/-- A write keeps the canonical form (R30). -/
theorem Memory.write_wf {m : Memory} (h : m.wf) {a : Nat} (ha : a < 2 ^ 32) (v : Byte) : (m.write a v).wf := by
  refine ⟨?_, fun c hc => ?_⟩
  · obtain ⟨hp, -⟩ := h
    induction m with
    | nil => simp [Memory.write]
    | cons d m ih =>
      obtain ⟨k, w⟩ := d
      obtain ⟨hk, hm⟩ := List.pairwise_cons.1 hp
      simp only [Memory.write, Memory.cons_eq]
      split
      · rename_i hlt
        refine List.pairwise_cons.2 ⟨fun c hc => ?_, hp⟩
        rcases List.mem_cons.1 hc with rfl | hc
        · exact hlt
        · exact hlt.trans (hk c hc)
      · split
        · rename_i he; subst he; exact List.pairwise_cons.2 ⟨hk, hm⟩
        · rename_i h1 h2
          refine List.pairwise_cons.2 ⟨fun c hc => ?_, ih hm⟩
          rcases Memory.mem_write hc with rfl | hc
          · show k < a
            omega
          · exact hk c hc
  · rcases Memory.mem_write hc with rfl | hc
    · exact ⟨ha, by simp [Memory.unlisted]⟩
    · exact h.2 c hc

/-- Bytes written inside the address space keep the canonical form (R30, R34). -/
theorem Memory.writeBytes_wf {m : Memory} (h : m.wf) {a : Nat} {bs : List Byte} (ha : a + bs.length ≤ 2 ^ 32) :
    (m.writeBytes a bs).wf := by
  induction bs generalizing m a with
  | nil => exact h
  | cons x bs ih =>
    rw [List.length_cons] at ha
    exact ih (Memory.write_wf h (by omega) x) (by omega)

/-- The empty memory is in its canonical form. -/
theorem Memory.nil_wf : Memory.wf [] := by simp [Memory.wf]

/-- The addresses of a span. -/
theorem mem_span {a n x : Nat} : x ∈ span a n ↔ a ≤ x ∧ x < a + n := by
  simp only [span, List.mem_map, List.mem_range]
  exact ⟨fun ⟨d, hd, e⟩ => by omega, fun h => ⟨x - a, by omega, by omega⟩⟩

theorem admitsFetch_iff {s : State} {a : Nat} : s.admitsFetch a = true ↔ ∀ k < 4, s.cfg.inCode (a + k) = true := by
  simp [State.admitsFetch, span]

theorem admitsLoad_iff {s : State} {a n : Nat} :
    s.admitsLoad a n = true ↔ ∀ k < n, s.cfg.inData (a + k) = true ∨ s.cfg.inCode (a + k) = true := by
  simp [State.admitsLoad, span]

theorem touchesCode_iff {s : State} {a n : Nat} : s.touchesCode a n = true ↔ ∃ k < n, s.cfg.inCode (a + k) = true := by
  simp [State.touchesCode, span]

theorem touchesCode_false {s : State} {a n : Nat} :
    s.touchesCode a n = false ↔ ∀ k < n, s.cfg.inCode (a + k) = false := by
  simp [State.touchesCode, span]

theorem inDataRegion_iff {s : State} {a n : Nat} : s.inDataRegion a n = true ↔ ∀ k < n, s.cfg.inData (a + k) = true := by
  simp [State.inDataRegion, span]

end Sys2Proof.Machine
end

