-- ==== Sys2Proof/Laws/State.lean ====
section
/-! SUPPORT. One lemma for each field of State and each named update of it, so that no proof unfolds a record update. -/

namespace Sys2Proof.Machine

variable (s : State)

/-! ### `advance` -/

@[simp] theorem State.advance_cfg : (s.advance).cfg = s.cfg := rfl
@[simp] theorem State.advance_regs : (s.advance).regs = s.regs := rfl
@[simp] theorem State.advance_hi : (s.advance).hi = s.hi := rfl
@[simp] theorem State.advance_lo : (s.advance).lo = s.lo := rfl
@[simp] theorem State.advance_pc : (s.advance).pc = s.npc := rfl
@[simp] theorem State.advance_npc : (s.advance).npc = s.npc + 4 := rfl
@[simp] theorem State.advance_inDelay : (s.advance).inDelay = false := rfl
@[simp] theorem State.advance_status : (s.advance).status = s.status := rfl
@[simp] theorem State.advance_cause : (s.advance).cause = s.cause := rfl
@[simp] theorem State.advance_epc : (s.advance).epc = s.epc := rfl
@[simp] theorem State.advance_errorEpc : (s.advance).errorEpc = s.errorEpc := rfl
@[simp] theorem State.advance_llbit : (s.advance).llbit = s.llbit := rfl
@[simp] theorem State.advance_mem : (s.advance).mem = s.mem := rfl
@[simp] theorem State.advance_draws : (s.advance).draws = s.draws := rfl

/-! ### `jumpNow` -/

@[simp] theorem State.jumpNow_cfg (t : Word) : (s.jumpNow t).cfg = s.cfg := rfl
@[simp] theorem State.jumpNow_regs (t : Word) : (s.jumpNow t).regs = s.regs := rfl
@[simp] theorem State.jumpNow_hi (t : Word) : (s.jumpNow t).hi = s.hi := rfl
@[simp] theorem State.jumpNow_lo (t : Word) : (s.jumpNow t).lo = s.lo := rfl
@[simp] theorem State.jumpNow_pc (t : Word) : (s.jumpNow t).pc = t := rfl
@[simp] theorem State.jumpNow_npc (t : Word) : (s.jumpNow t).npc = t + 4 := rfl
@[simp] theorem State.jumpNow_inDelay (t : Word) : (s.jumpNow t).inDelay = false := rfl
@[simp] theorem State.jumpNow_status (t : Word) : (s.jumpNow t).status = s.status := rfl
@[simp] theorem State.jumpNow_cause (t : Word) : (s.jumpNow t).cause = s.cause := rfl
@[simp] theorem State.jumpNow_epc (t : Word) : (s.jumpNow t).epc = s.epc := rfl
@[simp] theorem State.jumpNow_errorEpc (t : Word) : (s.jumpNow t).errorEpc = s.errorEpc := rfl
@[simp] theorem State.jumpNow_llbit (t : Word) : (s.jumpNow t).llbit = s.llbit := rfl
@[simp] theorem State.jumpNow_mem (t : Word) : (s.jumpNow t).mem = s.mem := rfl
@[simp] theorem State.jumpNow_draws (t : Word) : (s.jumpNow t).draws = s.draws := rfl

/-! ### `branchNotTaken` -/

@[simp] theorem State.branchNotTaken_cfg : (s.branchNotTaken).cfg = s.cfg := rfl
@[simp] theorem State.branchNotTaken_regs : (s.branchNotTaken).regs = s.regs := rfl
@[simp] theorem State.branchNotTaken_hi : (s.branchNotTaken).hi = s.hi := rfl
@[simp] theorem State.branchNotTaken_lo : (s.branchNotTaken).lo = s.lo := rfl
@[simp] theorem State.branchNotTaken_pc : (s.branchNotTaken).pc = s.npc := rfl
@[simp] theorem State.branchNotTaken_npc : (s.branchNotTaken).npc = s.npc + 4 := rfl
@[simp] theorem State.branchNotTaken_inDelay : (s.branchNotTaken).inDelay = s.cfg.delaySlots := rfl
@[simp] theorem State.branchNotTaken_status : (s.branchNotTaken).status = s.status := rfl
@[simp] theorem State.branchNotTaken_cause : (s.branchNotTaken).cause = s.cause := rfl
@[simp] theorem State.branchNotTaken_epc : (s.branchNotTaken).epc = s.epc := rfl
@[simp] theorem State.branchNotTaken_errorEpc : (s.branchNotTaken).errorEpc = s.errorEpc := rfl
@[simp] theorem State.branchNotTaken_llbit : (s.branchNotTaken).llbit = s.llbit := rfl
@[simp] theorem State.branchNotTaken_mem : (s.branchNotTaken).mem = s.mem := rfl
@[simp] theorem State.branchNotTaken_draws : (s.branchNotTaken).draws = s.draws := rfl

/-! ### `branchTo` -/

@[simp] theorem State.branchTo_cfg (t : Word) : (s.branchTo t).cfg = s.cfg := by
  unfold State.branchTo; split <;> rfl
@[simp] theorem State.branchTo_regs (t : Word) : (s.branchTo t).regs = s.regs := by
  unfold State.branchTo; split <;> rfl
@[simp] theorem State.branchTo_hi (t : Word) : (s.branchTo t).hi = s.hi := by
  unfold State.branchTo; split <;> rfl
@[simp] theorem State.branchTo_lo (t : Word) : (s.branchTo t).lo = s.lo := by
  unfold State.branchTo; split <;> rfl
@[simp] theorem State.branchTo_pc (t : Word) : (s.branchTo t).pc = if s.cfg.delaySlots then s.npc else t := by
  unfold State.branchTo; split <;> simp [*, State.jumpNow]
@[simp] theorem State.branchTo_npc (t : Word) : (s.branchTo t).npc = if s.cfg.delaySlots then t else t + 4 := by
  unfold State.branchTo; split <;> simp [*, State.jumpNow]
@[simp] theorem State.branchTo_inDelay (t : Word) : (s.branchTo t).inDelay = s.cfg.delaySlots := by
  unfold State.branchTo; split <;> simp [*, State.jumpNow]
@[simp] theorem State.branchTo_status (t : Word) : (s.branchTo t).status = s.status := by
  unfold State.branchTo; split <;> rfl
@[simp] theorem State.branchTo_cause (t : Word) : (s.branchTo t).cause = s.cause := by
  unfold State.branchTo; split <;> rfl
@[simp] theorem State.branchTo_epc (t : Word) : (s.branchTo t).epc = s.epc := by
  unfold State.branchTo; split <;> rfl
@[simp] theorem State.branchTo_errorEpc (t : Word) : (s.branchTo t).errorEpc = s.errorEpc := by
  unfold State.branchTo; split <;> rfl
@[simp] theorem State.branchTo_llbit (t : Word) : (s.branchTo t).llbit = s.llbit := by
  unfold State.branchTo; split <;> rfl
@[simp] theorem State.branchTo_mem (t : Word) : (s.branchTo t).mem = s.mem := by
  unfold State.branchTo; split <;> rfl
@[simp] theorem State.branchTo_draws (t : Word) : (s.branchTo t).draws = s.draws := by
  unfold State.branchTo; split <;> rfl

/-! ### `writeReg` -/

@[simp] theorem State.writeReg_cfg (r : RegNo) (v : Word) : (s.writeReg r v).cfg = s.cfg := by
  unfold State.writeReg; split <;> rfl
@[simp] theorem State.writeReg_hi (r : RegNo) (v : Word) : (s.writeReg r v).hi = s.hi := by
  unfold State.writeReg; split <;> rfl
@[simp] theorem State.writeReg_lo (r : RegNo) (v : Word) : (s.writeReg r v).lo = s.lo := by
  unfold State.writeReg; split <;> rfl
@[simp] theorem State.writeReg_pc (r : RegNo) (v : Word) : (s.writeReg r v).pc = s.pc := by
  unfold State.writeReg; split <;> rfl
@[simp] theorem State.writeReg_npc (r : RegNo) (v : Word) : (s.writeReg r v).npc = s.npc := by
  unfold State.writeReg; split <;> rfl
@[simp] theorem State.writeReg_inDelay (r : RegNo) (v : Word) : (s.writeReg r v).inDelay = s.inDelay := by
  unfold State.writeReg; split <;> rfl
@[simp] theorem State.writeReg_status (r : RegNo) (v : Word) : (s.writeReg r v).status = s.status := by
  unfold State.writeReg; split <;> rfl
@[simp] theorem State.writeReg_cause (r : RegNo) (v : Word) : (s.writeReg r v).cause = s.cause := by
  unfold State.writeReg; split <;> rfl
@[simp] theorem State.writeReg_epc (r : RegNo) (v : Word) : (s.writeReg r v).epc = s.epc := by
  unfold State.writeReg; split <;> rfl
@[simp] theorem State.writeReg_errorEpc (r : RegNo) (v : Word) : (s.writeReg r v).errorEpc = s.errorEpc := by
  unfold State.writeReg; split <;> rfl
@[simp] theorem State.writeReg_llbit (r : RegNo) (v : Word) : (s.writeReg r v).llbit = s.llbit := by
  unfold State.writeReg; split <;> rfl
@[simp] theorem State.writeReg_mem (r : RegNo) (v : Word) : (s.writeReg r v).mem = s.mem := by
  unfold State.writeReg; split <;> rfl
@[simp] theorem State.writeReg_draws (r : RegNo) (v : Word) : (s.writeReg r v).draws = s.draws := by
  unfold State.writeReg; split <;> rfl

/-! ### `writeHiLo` -/

@[simp] theorem State.writeHiLo_cfg (h l : Word) : (s.writeHiLo h l).cfg = s.cfg := rfl
@[simp] theorem State.writeHiLo_regs (h l : Word) : (s.writeHiLo h l).regs = s.regs := rfl
@[simp] theorem State.writeHiLo_hi (h l : Word) : (s.writeHiLo h l).hi = h := rfl
@[simp] theorem State.writeHiLo_lo (h l : Word) : (s.writeHiLo h l).lo = l := rfl
@[simp] theorem State.writeHiLo_pc (h l : Word) : (s.writeHiLo h l).pc = s.pc := rfl
@[simp] theorem State.writeHiLo_npc (h l : Word) : (s.writeHiLo h l).npc = s.npc := rfl
@[simp] theorem State.writeHiLo_inDelay (h l : Word) : (s.writeHiLo h l).inDelay = s.inDelay := rfl
@[simp] theorem State.writeHiLo_status (h l : Word) : (s.writeHiLo h l).status = s.status := rfl
@[simp] theorem State.writeHiLo_cause (h l : Word) : (s.writeHiLo h l).cause = s.cause := rfl
@[simp] theorem State.writeHiLo_epc (h l : Word) : (s.writeHiLo h l).epc = s.epc := rfl
@[simp] theorem State.writeHiLo_errorEpc (h l : Word) : (s.writeHiLo h l).errorEpc = s.errorEpc := rfl
@[simp] theorem State.writeHiLo_llbit (h l : Word) : (s.writeHiLo h l).llbit = s.llbit := rfl
@[simp] theorem State.writeHiLo_mem (h l : Word) : (s.writeHiLo h l).mem = s.mem := rfl
@[simp] theorem State.writeHiLo_draws (h l : Word) : (s.writeHiLo h l).draws = s.draws := rfl

/-! ### `writeDraw` -/

@[simp] theorem State.writeDraw_cfg (a : Word) (g : Bool) : (s.writeDraw a g).cfg = s.cfg := rfl
@[simp] theorem State.writeDraw_regs (a : Word) (g : Bool) : (s.writeDraw a g).regs = s.regs := rfl
@[simp] theorem State.writeDraw_hi (a : Word) (g : Bool) : (s.writeDraw a g).hi = (Config.divByZero s.draws a g).1 := rfl
@[simp] theorem State.writeDraw_lo (a : Word) (g : Bool) : (s.writeDraw a g).lo = (Config.divByZero s.draws a g).2 := rfl
@[simp] theorem State.writeDraw_pc (a : Word) (g : Bool) : (s.writeDraw a g).pc = s.pc := rfl
@[simp] theorem State.writeDraw_npc (a : Word) (g : Bool) : (s.writeDraw a g).npc = s.npc := rfl
@[simp] theorem State.writeDraw_inDelay (a : Word) (g : Bool) : (s.writeDraw a g).inDelay = s.inDelay := rfl
@[simp] theorem State.writeDraw_status (a : Word) (g : Bool) : (s.writeDraw a g).status = s.status := rfl
@[simp] theorem State.writeDraw_cause (a : Word) (g : Bool) : (s.writeDraw a g).cause = s.cause := rfl
@[simp] theorem State.writeDraw_epc (a : Word) (g : Bool) : (s.writeDraw a g).epc = s.epc := rfl
@[simp] theorem State.writeDraw_errorEpc (a : Word) (g : Bool) : (s.writeDraw a g).errorEpc = s.errorEpc := rfl
@[simp] theorem State.writeDraw_llbit (a : Word) (g : Bool) : (s.writeDraw a g).llbit = s.llbit := rfl
@[simp] theorem State.writeDraw_mem (a : Word) (g : Bool) : (s.writeDraw a g).mem = s.mem := rfl
@[simp] theorem State.writeDraw_draws (a : Word) (g : Bool) : (s.writeDraw a g).draws = s.draws + 1 := rfl

/-! ### `writeProduct` -/

@[simp] theorem State.writeProduct_cfg (p : BitVec 64) : (s.writeProduct p).cfg = s.cfg := rfl
@[simp] theorem State.writeProduct_regs (p : BitVec 64) : (s.writeProduct p).regs = s.regs := rfl
@[simp] theorem State.writeProduct_hi (p : BitVec 64) : (s.writeProduct p).hi = p.extractLsb' 32 32 := rfl
@[simp] theorem State.writeProduct_lo (p : BitVec 64) : (s.writeProduct p).lo = p.extractLsb' 0 32 := rfl
@[simp] theorem State.writeProduct_pc (p : BitVec 64) : (s.writeProduct p).pc = s.pc := rfl
@[simp] theorem State.writeProduct_npc (p : BitVec 64) : (s.writeProduct p).npc = s.npc := rfl
@[simp] theorem State.writeProduct_inDelay (p : BitVec 64) : (s.writeProduct p).inDelay = s.inDelay := rfl
@[simp] theorem State.writeProduct_status (p : BitVec 64) : (s.writeProduct p).status = s.status := rfl
@[simp] theorem State.writeProduct_cause (p : BitVec 64) : (s.writeProduct p).cause = s.cause := rfl
@[simp] theorem State.writeProduct_epc (p : BitVec 64) : (s.writeProduct p).epc = s.epc := rfl
@[simp] theorem State.writeProduct_errorEpc (p : BitVec 64) : (s.writeProduct p).errorEpc = s.errorEpc := rfl
@[simp] theorem State.writeProduct_llbit (p : BitVec 64) : (s.writeProduct p).llbit = s.llbit := rfl
@[simp] theorem State.writeProduct_mem (p : BitVec 64) : (s.writeProduct p).mem = s.mem := rfl
@[simp] theorem State.writeProduct_draws (p : BitVec 64) : (s.writeProduct p).draws = s.draws := rfl

/-! ### `trapEntry` -/

@[simp] theorem State.trapEntry_cfg (e : Exc) : (s.trapEntry e).cfg = s.cfg := rfl
@[simp] theorem State.trapEntry_regs (e : Exc) : (s.trapEntry e).regs = s.regs := rfl
@[simp] theorem State.trapEntry_hi (e : Exc) : (s.trapEntry e).hi = s.hi := rfl
@[simp] theorem State.trapEntry_lo (e : Exc) : (s.trapEntry e).lo = s.lo := rfl
@[simp] theorem State.trapEntry_pc (e : Exc) : (s.trapEntry e).pc = s.cfg.excVector := rfl
@[simp] theorem State.trapEntry_npc (e : Exc) : (s.trapEntry e).npc = s.cfg.excVector + 4 := rfl
@[simp] theorem State.trapEntry_inDelay (e : Exc) : (s.trapEntry e).inDelay = false := rfl
@[simp] theorem State.trapEntry_status (e : Exc) : (s.trapEntry e).status = setExl s.status := rfl
@[simp] theorem State.trapEntry_cause (e : Exc) : (s.trapEntry e).cause = setExcCode s.cause (excCode e) := rfl
@[simp] theorem State.trapEntry_epc (e : Exc) : (s.trapEntry e).epc = s.pc + 4 := rfl
@[simp] theorem State.trapEntry_errorEpc (e : Exc) : (s.trapEntry e).errorEpc = s.errorEpc := rfl
@[simp] theorem State.trapEntry_llbit (e : Exc) : (s.trapEntry e).llbit = s.llbit := rfl
@[simp] theorem State.trapEntry_mem (e : Exc) : (s.trapEntry e).mem = s.mem := rfl
@[simp] theorem State.trapEntry_draws (e : Exc) : (s.trapEntry e).draws = s.draws := rfl

/-! ### `exceptionReturn` -/

@[simp] theorem State.exceptionReturn_cfg : (s.exceptionReturn).cfg = s.cfg := by
  unfold State.exceptionReturn; split <;> rfl
@[simp] theorem State.exceptionReturn_regs : (s.exceptionReturn).regs = s.regs := by
  unfold State.exceptionReturn; split <;> rfl
@[simp] theorem State.exceptionReturn_hi : (s.exceptionReturn).hi = s.hi := by
  unfold State.exceptionReturn; split <;> rfl
@[simp] theorem State.exceptionReturn_lo : (s.exceptionReturn).lo = s.lo := by
  unfold State.exceptionReturn; split <;> rfl
@[simp] theorem State.exceptionReturn_pc : (s.exceptionReturn).pc = if s.erl then s.errorEpc else s.epc := by
  unfold State.exceptionReturn; split <;> simp [*, State.jumpNow]
@[simp] theorem State.exceptionReturn_npc : (s.exceptionReturn).npc = (if s.erl then s.errorEpc else s.epc) + 4 := by
  unfold State.exceptionReturn; split <;> simp [*, State.jumpNow]
@[simp] theorem State.exceptionReturn_inDelay : (s.exceptionReturn).inDelay = false := by
  unfold State.exceptionReturn; split <;> simp [*, State.jumpNow]
@[simp] theorem State.exceptionReturn_status : (s.exceptionReturn).status = if s.erl then clearErl s.status else clearExl s.status := by
  unfold State.exceptionReturn; split <;> simp [*, State.jumpNow]
@[simp] theorem State.exceptionReturn_cause : (s.exceptionReturn).cause = s.cause := by
  unfold State.exceptionReturn; split <;> rfl
@[simp] theorem State.exceptionReturn_epc : (s.exceptionReturn).epc = s.epc := by
  unfold State.exceptionReturn; split <;> rfl
@[simp] theorem State.exceptionReturn_errorEpc : (s.exceptionReturn).errorEpc = s.errorEpc := by
  unfold State.exceptionReturn; split <;> rfl
@[simp] theorem State.exceptionReturn_llbit : (s.exceptionReturn).llbit = false := by
  unfold State.exceptionReturn; split <;> simp [*, State.jumpNow]
@[simp] theorem State.exceptionReturn_mem : (s.exceptionReturn).mem = s.mem := by
  unfold State.exceptionReturn; split <;> rfl
@[simp] theorem State.exceptionReturn_draws : (s.exceptionReturn).draws = s.draws := by
  unfold State.exceptionReturn; split <;> rfl

/-! ### `writeCp0` -/

@[simp] theorem State.writeCp0_cfg (c : Cp0) (v : Word) : (s.writeCp0 c v).cfg = s.cfg := by cases c <;> rfl
@[simp] theorem State.writeCp0_regs (c : Cp0) (v : Word) : (s.writeCp0 c v).regs = s.regs := by cases c <;> rfl
@[simp] theorem State.writeCp0_hi (c : Cp0) (v : Word) : (s.writeCp0 c v).hi = s.hi := by cases c <;> rfl
@[simp] theorem State.writeCp0_lo (c : Cp0) (v : Word) : (s.writeCp0 c v).lo = s.lo := by cases c <;> rfl
@[simp] theorem State.writeCp0_pc (c : Cp0) (v : Word) : (s.writeCp0 c v).pc = s.pc := by cases c <;> rfl
@[simp] theorem State.writeCp0_npc (c : Cp0) (v : Word) : (s.writeCp0 c v).npc = s.npc := by cases c <;> rfl
@[simp] theorem State.writeCp0_inDelay (c : Cp0) (v : Word) : (s.writeCp0 c v).inDelay = s.inDelay := by cases c <;> rfl
@[simp] theorem State.writeCp0_status (c : Cp0) (v : Word) :
    (s.writeCp0 c v).status = if c = .status then v else s.status := by cases c <;> rfl
@[simp] theorem State.writeCp0_cause (c : Cp0) (v : Word) :
    (s.writeCp0 c v).cause = if c = .cause then v else s.cause := by cases c <;> rfl
@[simp] theorem State.writeCp0_epc (c : Cp0) (v : Word) :
    (s.writeCp0 c v).epc = if c = .epc then v else s.epc := by cases c <;> rfl
@[simp] theorem State.writeCp0_errorEpc (c : Cp0) (v : Word) :
    (s.writeCp0 c v).errorEpc = if c = .errorEpc then v else s.errorEpc := by cases c <;> rfl
@[simp] theorem State.writeCp0_llbit (c : Cp0) (v : Word) : (s.writeCp0 c v).llbit = s.llbit := by cases c <;> rfl
@[simp] theorem State.writeCp0_mem (c : Cp0) (v : Word) : (s.writeCp0 c v).mem = s.mem := by cases c <;> rfl
@[simp] theorem State.writeCp0_draws (c : Cp0) (v : Word) : (s.writeCp0 c v).draws = s.draws := by cases c <;> rfl

/-- Read after write of a CP0 register (R19 to R22, R177): the one written, all 32 bits, and the others as before. -/
theorem State.readCp0_writeCp0 (c d : Cp0) (v : Word) :
    (s.writeCp0 c v).readCp0 d = if d = c then v else s.readCp0 d := by cases c <;> cases d <;> rfl

/-! ### Reading registers -/

/-- `x[0]` reads 0 (R11). -/
@[simp] theorem State.readReg_zero : s.readReg 0#5 = 0#32 := rfl

/-- `x[r]` depends on the register file only. -/
theorem State.readReg_congr {s t : State} (h : t.regs = s.regs) (r : RegNo) : t.readReg r = s.readReg r := by
  simp [State.readReg, h]

/-- A write to `x[0]` is discarded (R11). -/
@[simp] theorem State.writeReg_zero (v : Word) : s.writeReg 0#5 v = s := rfl

/-- Read after write of a general register (R10, R11). -/
theorem State.readReg_writeReg (r q : RegNo) (v : Word) :
    (s.writeReg r v).readReg q = if q = r ∧ q ≠ 0 then v else s.readReg q := by
  unfold State.writeReg State.readReg
  by_cases hr : r = 0
  · subst hr; by_cases hq : q = 0 <;> simp [hq]
  · by_cases hq : q = 0
    · simp [hq]
    · simp only [hr, hq, if_false, not_false_eq_true, ne_eq, and_true]
      rw [Vector.getElem_set]
      by_cases h : q = r
      · simp [h]
      · have h' : r.toNat ≠ q.toNat := fun e => h (BitVec.eq_of_toNat_eq e.symm)
        simp [h, h']

/-- Entry 0 of the register file is never written (R11). -/
@[simp] theorem State.writeReg_regs_zero (r : RegNo) (v : Word) : (s.writeReg r v).regs[0] = s.regs[0] := by
  unfold State.writeReg
  split
  · rfl
  · rename_i h
    have : r.toNat ≠ 0 := fun e => h (BitVec.eq_of_toNat_eq e)
    simp [this]

@[simp] theorem State.advance_readReg (r : RegNo) : (s.advance).readReg r = s.readReg r :=
  State.readReg_congr (State.advance_regs s) r
@[simp] theorem State.jumpNow_readReg (t : Word) (r : RegNo) : (s.jumpNow t).readReg r = s.readReg r :=
  State.readReg_congr (State.jumpNow_regs s t) r
@[simp] theorem State.branchNotTaken_readReg (r : RegNo) : (s.branchNotTaken).readReg r = s.readReg r :=
  State.readReg_congr (State.branchNotTaken_regs s) r
@[simp] theorem State.branchTo_readReg (t : Word) (r : RegNo) : (s.branchTo t).readReg r = s.readReg r :=
  State.readReg_congr (State.branchTo_regs s t) r
@[simp] theorem State.writeHiLo_readReg (h l : Word) (r : RegNo) : (s.writeHiLo h l).readReg r = s.readReg r :=
  State.readReg_congr (State.writeHiLo_regs s h l) r
@[simp] theorem State.writeDraw_readReg (a : Word) (g : Bool) (r : RegNo) : (s.writeDraw a g).readReg r = s.readReg r :=
  State.readReg_congr (State.writeDraw_regs s a g) r
@[simp] theorem State.writeProduct_readReg (p : BitVec 64) (r : RegNo) : (s.writeProduct p).readReg r = s.readReg r :=
  State.readReg_congr (State.writeProduct_regs s p) r
@[simp] theorem State.trapEntry_readReg (e : Exc) (r : RegNo) : (s.trapEntry e).readReg r = s.readReg r :=
  State.readReg_congr (State.trapEntry_regs s e) r
@[simp] theorem State.exceptionReturn_readReg (r : RegNo) : (s.exceptionReturn).readReg r = s.readReg r :=
  State.readReg_congr (State.exceptionReturn_regs s) r
@[simp] theorem State.writeCp0_readReg (c : Cp0) (v : Word) (r : RegNo) : (s.writeCp0 c v).readReg r = s.readReg r :=
  State.readReg_congr (State.writeCp0_regs s c v) r

end Sys2Proof.Machine
end

