-- ==== Sys2Proof/Laws/Ops.lean ====
section
/-! SUPPORT. For each shared operation, once, everything it can do when it answers a next state or value; and, for all instructions together, what
`exec` and `step` can do. -/

namespace Sys2Proof.Machine

@[simp] theorem andThen_next {α β : Type} {x : Host.Outcome α Fault Refusal} {f : α → Host.Outcome β Fault Refusal} {b : β} :
    andThen x f = .next b ↔ ∃ a, x = .next a ∧ f a = .next b := by
  cases x <;> simp [andThen]

theorem andThen_fault {α β : Type} {x : Host.Outcome α Fault Refusal} {f : α → Host.Outcome β Fault Refusal} {e : Fault} :
    andThen x f = .fault e ↔ x = .fault e ∨ ∃ a, x = .next a ∧ f a = .fault e := by
  cases x <;> simp [andThen]

theorem andThen_refused {α β : Type} {x : Host.Outcome α Fault Refusal} {f : α → Host.Outcome β Fault Refusal} {e : Refusal} :
    andThen x f = .refused e ↔ x = .refused e ∨ ∃ a, x = .next a ∧ f a = .refused e := by
  cases x <;> simp [andThen]

@[simp] theorem andThen_of_next {α β : Type} (a : α) (f : α → Host.Outcome β Fault Refusal) : andThen (.next a) f = f a := rfl

@[simp] theorem byteAt_next {s : State} {a : Nat} {b : Byte} : s.byteAt a = .next b ↔ s.mem.read a = some b := by
  unfold State.byteAt; split <;> simp [*]

/-- A load or a fetch is never refused: it answers its value or faults (R39). -/
@[simp] theorem byteAt_not_refused {s : State} {a : Nat} {e : Refusal} : s.byteAt a ≠ .refused e := by
  unfold State.byteAt; split <;> simp

@[simp] theorem loadByte_not_refused {s : State} {a : Word} {e : Refusal} : s.loadByte a ≠ .refused e := by
  unfold State.loadByte; split <;> simp

@[simp] theorem loadHalf_not_refused {s : State} {a : Word} {e : Refusal} : s.loadHalf a ≠ .refused e := by
  unfold State.loadHalf; split <;> simp [andThen_refused]

/-- A byte load reads an admitted byte that holds a value (R33, R39). -/
theorem loadByte_next {s : State} {a : Word} {b : Byte} :
    s.loadByte a = .next b ↔ s.admitsLoad a.toNat 1 = true ∧ s.mem.read a.toNat = some b := by
  unfold State.loadByte; split <;> simp [*]

/-- A halfword load reads two admitted bytes that hold values, in the byte order (R33, R39). -/
theorem loadHalf_next {s : State} {a : Word} {h : Half} :
    s.loadHalf a = .next h ↔ s.admitsLoad a.toNat 2 = true ∧ ∃ b0 b1, s.mem.read a.toNat = some b0 ∧
      s.mem.read (a.toNat + 1) = some b1 ∧ h = joinHalf s.cfg.bigEndian b0 b1 := by
  unfold State.loadHalf; split
  · simp [*, @eq_comm Half]
  · simp [*]

/-- A store writes its bytes, none in `CodeRegion`, all in `DataRegion` (R34, R39, R44). -/
theorem store_next {s t : State} {a : Word} {bs : List Byte} :
    s.store a bs = .next t ↔ s.touchesCode a.toNat bs.length = false ∧ s.inDataRegion a.toNat bs.length = true ∧
      t = { s with mem := s.mem.writeBytes a.toNat bs } := by
  unfold State.store; split
  · simp [*]
  · split <;> simp [*, @eq_comm State]

/-- The only refusal of a store (R44). -/
theorem store_refused {s : State} {a : Word} {bs : List Byte} {e : Refusal} :
    s.store a bs = .refused e ↔ s.touchesCode a.toNat bs.length = true ∧ e = .storeToCode := by
  unfold State.store; split
  · simp [*, @eq_comm Refusal]
  · split <;> simp [*]

/-- An odd address (R37), as a number. -/
theorem oddAddr_iff (a : Word) : oddAddr a = true ↔ a.toNat % 2 = 1 := by
  unfold oddAddr; rw [BitVec.getLsbD, Nat.testBit_zero]; simp

theorem oddAddr_false (a : Word) : oddAddr a = false ↔ a.toNat % 2 = 0 := by
  rw [← Bool.not_eq_true, oddAddr_iff]; omega

/-- The branch offset is four times the signed immediate (R54). -/
theorem branchOffset_eq (imm16 : Half) : branchOffset imm16 = BitVec.ofInt 32 (4 * imm16.toInt) := by
  unfold branchOffset BitVec.signExtend
  rw [BitVec.toInt_append_zero]
  congr 1

/-- The instruction raised `e` and trap entry was taken (R145, R150, R151). -/
def Raised (s t : State) (e : Exc) : Prop :=
  s.inDelay = false ∧ s.exl = false ∧ s.erl = false ∧ t = s.trapEntry e

theorem raise_next {s t : State} {e : Exc} : s.raise e = .next t ↔ Raised s t e := by
  unfold State.raise Raised
  cases s.inDelay <;> cases s.exl <;> cases s.erl <;> simp [@eq_comm State]

/-- Trap entry is taken outside a delay slot with EXL and ERL 0 (R145). -/
theorem raise_of_clear {s : State} (hd : s.inDelay = false) (hx : s.exl = false) (hr : s.erl = false) (e : Exc) :
    s.raise e = .next (s.trapEntry e) :=
  raise_next.2 ⟨hd, hx, hr, rfl⟩

/-- The refusals of an exception (R150, R151). -/
theorem raise_refused {s : State} {e : Exc} {r : Refusal} :
    s.raise e = .refused r ↔ (s.inDelay = true ∧ r = .exceptionInDelaySlot) ∨
      (s.inDelay = false ∧ (s.exl = true ∨ s.erl = true) ∧ r = .nestedException) := by
  unfold State.raise
  cases s.inDelay <;> cases s.exl <;> cases s.erl <;> simp [@eq_comm Refusal]

/-- A control transfer runs outside a delay slot only (R15 step 6). -/
theorem transfer_next {s u t : State} : s.transfer u = .next t ↔ s.inDelay = false ∧ t = u := by
  unfold State.transfer; cases s.inDelay <;> simp [@eq_comm State]

/-- What each instruction does when it answers a next state `t` in state `s`. -/
def Did (s t : State) : Instr → Prop
  | .div rs rt =>
    t = (if s.readReg rt = 0 then s.writeDraw (s.readReg rs) true
      else s.writeHiLo
        (BitVec.ofInt 32 ((s.readReg rs).toInt - signedQuot (s.readReg rs).toInt (s.readReg rt).toInt * (s.readReg rt).toInt))
        (BitVec.ofInt 32 (signedQuot (s.readReg rs).toInt (s.readReg rt).toInt))).advance
  | .divu rs rt =>
    t = (if s.readReg rt = 0 then s.writeDraw (s.readReg rs) false
      else s.writeHiLo
        (BitVec.ofNat 32 ((s.readReg rs).toNat - (s.readReg rs).toNat / (s.readReg rt).toNat * (s.readReg rt).toNat))
        (BitVec.ofNat 32 ((s.readReg rs).toNat / (s.readReg rt).toNat))).advance
  | .mult rs rt => t = (s.writeProduct (BitVec.ofInt 64 ((s.readReg rs).toInt * (s.readReg rt).toInt))).advance
  | .multu rs rt => t = (s.writeProduct (BitVec.ofNat 64 ((s.readReg rs).toNat * (s.readReg rt).toNat))).advance
  | .bgez rs imm16 =>
    s.inDelay = false ∧ t = if (s.readReg rs).msb then s.branchNotTaken else s.branchTo (s.branchTarget imm16)
  | .jalr rd rs => s.inDelay = false ∧ t = (s.writeReg rd s.link).branchTo (s.readReg rs)
  | .lbu rt base imm16 =>
    ∃ b, s.loadByte (s.effAddr base imm16) = .next b ∧ t = (s.writeReg rt (b.setWidth 32)).advance
  | .lhu rt base imm16 =>
    (oddAddr (s.effAddr base imm16) = true ∧ Raised s t .addressErrorLoad) ∨
    (oddAddr (s.effAddr base imm16) = false ∧
      ∃ h, s.loadHalf (s.effAddr base imm16) = .next h ∧ t = (s.writeReg rt (h.setWidth 32)).advance)
  | .lb rt base imm16 =>
    ∃ b, s.loadByte (s.effAddr base imm16) = .next b ∧ t = (s.writeReg rt (b.signExtend 32)).advance
  | .lh rt base imm16 =>
    (oddAddr (s.effAddr base imm16) = true ∧ Raised s t .addressErrorLoad) ∨
    (oddAddr (s.effAddr base imm16) = false ∧
      ∃ h, s.loadHalf (s.effAddr base imm16) = .next h ∧ t = (s.writeReg rt (h.signExtend 32)).advance)
  | .sb rt base imm16 =>
    ∃ u, s.store (s.effAddr base imm16) [byteOf (s.readReg rt) 0] = .next u ∧ t = u.advance
  | .sh rt base imm16 =>
    (oddAddr (s.effAddr base imm16) = true ∧ Raised s t .addressErrorStore) ∨
    (oddAddr (s.effAddr base imm16) = false ∧
      ∃ u, s.store (s.effAddr base imm16) (splitHalf s.cfg.bigEndian ((s.readReg rt).extractLsb' 0 16)) = .next u ∧
        t = u.advance)
  | .brk => Raised s t .breakpoint
  | .syscall => Raised s t .systemCall
  | .eret => s.inDelay = false ∧ t = s.exceptionReturn
  | .mfhi rd => t = (s.writeReg rd s.hi).advance
  | .mflo rd => t = (s.writeReg rd s.lo).advance
  | .mthi rs => t = (s.writeHiLo (s.readReg rs) s.lo).advance
  | .mtlo rs => t = (s.writeHiLo s.hi (s.readReg rs)).advance
  | .mfc0 rt rd => ∃ c, cp0Of rd = some c ∧ t = (s.writeReg rt (s.readCp0 c)).advance
  | .mtc0 rt rd => ∃ c, cp0Of rd = some c ∧ t = (s.writeCp0 c (s.readReg rt)).advance
  | .clz rd rs => t = (s.writeReg rd (BitVec.ofNat 32 (leadingZeros (s.readReg rs) 32))).advance
  | .teq rs rt =>
    (s.readReg rs = s.readReg rt ∧ Raised s t .trap) ∨ (s.readReg rs ≠ s.readReg rt ∧ t = s.advance)

/-- Everything an instruction can do when it answers a next state. -/
theorem exec_next {i : Instr} {s t : State} : exec i s = .next t ↔ Did s t i := by
  cases i
  case div rs rt => simp only [exec, execDiv, Did]; split <;> simp [@eq_comm State]
  case divu rs rt => simp only [exec, execDivu, Did]; split <;> simp [@eq_comm State]
  case mult => simp [exec, execMult, Did, @eq_comm State]
  case multu => simp [exec, execMultu, Did, @eq_comm State]
  case bgez => simp [exec, execBgez, Did, transfer_next]
  case jalr => simp [exec, execJalr, Did, transfer_next]
  case lbu => simp [exec, execLbu, State.byteLoad, Did, @eq_comm State]
  case lb => simp [exec, execLb, State.byteLoad, Did, @eq_comm State]
  case lhu => simp only [exec, execLhu, State.halfLoad, Did]; split <;> simp [*, raise_next, @eq_comm State]
  case lh => simp only [exec, execLh, State.halfLoad, Did]; split <;> simp [*, raise_next, @eq_comm State]
  case sb => simp [exec, execSb, Did, @eq_comm State]
  case sh => simp only [exec, execSh, Did]; split <;> simp [*, raise_next, @eq_comm State]
  case brk => simp [exec, execBreak, Did, raise_next]
  case syscall => simp [exec, execSyscall, Did, raise_next]
  case eret => simp [exec, execEret, Did, transfer_next]
  case mfhi => simp [exec, execMfhi, Did, @eq_comm State]
  case mflo => simp [exec, execMflo, Did, @eq_comm State]
  case mthi => simp [exec, execMthi, Did, @eq_comm State]
  case mtlo => simp [exec, execMtlo, Did, @eq_comm State]
  case mfc0 => simp only [exec, execMfc0, Did]; split <;> simp [*, @eq_comm State]
  case mtc0 => simp only [exec, execMtc0, Did]; split <;> simp [*, @eq_comm State]
  case clz => simp [exec, execClz, Did, @eq_comm State]
  case teq => simp only [exec, execTeq, Did]; split <;> simp [*, raise_next, @eq_comm State]

/-- A fetch reads four admitted bytes that hold values, in the byte order (R36). -/
theorem fetch_next {s : State} {w : Word} :
    s.fetch = .next w ↔ s.admitsFetch s.pc.toNat = true ∧ ∃ b0 b1 b2 b3, s.mem.read s.pc.toNat = some b0 ∧
      s.mem.read (s.pc.toNat + 1) = some b1 ∧ s.mem.read (s.pc.toNat + 2) = some b2 ∧
      s.mem.read (s.pc.toNat + 3) = some b3 ∧ w = joinWord s.cfg.bigEndian b0 b1 b2 b3 := by
  unfold State.fetch; split
  · simp [*, @eq_comm Word]
  · simp [*]

/-- An admitted fetch of a byte that holds no value faults (R39; log 5). -/
theorem fetch_of_unwritten {s : State} (ha : s.admitsFetch s.pc.toNat = true)
    (h : ∃ k < 4, s.mem.read (s.pc.toNat + k) = none) : s.fetch = .fault .readOfUnwrittenMemory := by
  have byteAt_eq (a : Nat) : s.byteAt a = match s.mem.read a with
      | some b => .next b
      | none => .fault .readOfUnwrittenMemory := rfl
  obtain ⟨k, hk, hn⟩ := h
  rw [State.fetch, if_pos ha]
  have hk : k = 0 ∨ k = 1 ∨ k = 2 ∨ k = 3 := by omega
  rcases h0 : s.mem.read s.pc.toNat with _ | b0
  · simp [byteAt_eq, h0, andThen]
  rcases h1 : s.mem.read (s.pc.toNat + 1) with _ | b1
  · simp [byteAt_eq, h0, h1, andThen]
  rcases h2 : s.mem.read (s.pc.toNat + 2) with _ | b2
  · simp [byteAt_eq, h0, h1, h2, andThen]
  rcases h3 : s.mem.read (s.pc.toNat + 3) with _ | b3
  · simp [byteAt_eq, h0, h1, h2, h3, andThen]
  rcases hk with rfl | rfl | rfl | rfl <;> simp_all

/-- The instruction at an aligned `pc` is the decoded word (R15 steps 2 to 4). -/
theorem fetchInstr_next {s : State} {i : Instr} :
    s.fetchInstr = .next i ↔ Word.aligned s.pc = true ∧ ∃ w, s.fetch = .next w ∧ decode w = .ok i := by
  unfold State.fetchInstr; split
  · simp only [andThen_next, true_and, *]
    constructor
    · rintro ⟨w, hw, h⟩
      refine ⟨w, hw, ?_⟩
      split at h
      · simp_all
      · cases h
    · rintro ⟨w, hw, h⟩
      exact ⟨w, hw, by rw [h]⟩
  · simp [*]

/-- Everything a step can do when it answers a next state (R15). -/
theorem step_next {s t : State} :
    step s = .next t ↔ s.ended = false ∧ ∃ i, s.fetchInstr = .next i ∧ exec i s = .next t := by
  unfold step; cases s.ended <;> simp

/-- The end of the run, as the rule states it (R15 step 1). -/
theorem ended_iff {s : State} : s.ended = true ↔ s.cfg.haltPc = some s.pc ∧ s.inDelay = false := by
  simp [State.ended]

theorem aligned_iff {w : Word} : Word.aligned w = true ↔ w.toNat % 4 = 0 := by simp [Word.aligned]

/-- The parameters of `withFetchWord` admit the fetch (log 16). -/
theorem fetchingConfig_inCode (c : Config) (a : Word) : (span a.toNat 4).all (fetchingConfig c a).inCode = true := by
  unfold fetchingConfig
  by_cases h : (span a.toNat 4).all c.inCode = true
  · simp only [h, if_true]; exact h
  · simp only [h]
    rw [List.all_eq_true]
    intro x hx
    rw [mem_span] at hx
    simp [Config.inCode, Region.holds, hx]

end Sys2Proof.Machine
end

