-- ==== Sys2Proof/Laws/PerInstr.lean ====
section
/-! SUPPORT. One lemma for each instruction about its encoding (30_encoding.md R58): the word of the instruction fits its own row of the
opcode table, and the fields the row takes from that word give the instruction back. -/

namespace Sys2Proof.Laws

/-- Row `n` of R58 fits the word of the instruction and takes its fields back. -/
def fitsRow (n : Nat) (i : Instr) : Prop :=
  ∃ h : n < rows.length, rows[n].fits (encode i) = true ∧ rows[n].build (encode i) = i

/-- The instruction's word fits a row of the opcode table that gives the instruction back. -/
def OwnRow.Statement (i : Instr) : Prop := ∃ n, fitsRow n i

theorem OwnRow.div (rs rt : RegNo) : OwnRow.Statement (.div rs rt) := by
  have m : (0xFC00FFFF : Word) = packR 63 0 0 31 31 63 := by decide
  refine ⟨0, by decide, ?_, ?_⟩
  · show (Row.mk _ _ _ _).fits _ = true
    rw [fits_iff]
    show encode (.div rs rt) &&& (0xFC00FFFF : Word) = 0x0000001A
    rw [m]
    simp only [encode, packR_and]
    simp [packR]
  · show _ = Instr.div rs rt
    simp [rows, encode]

theorem OwnRow.divu (rs rt : RegNo) : OwnRow.Statement (.divu rs rt) := by
  have m : (0xFC00FFFF : Word) = packR 63 0 0 31 31 63 := by decide
  refine ⟨1, by decide, ?_, ?_⟩
  · show (Row.mk _ _ _ _).fits _ = true
    rw [fits_iff]
    show encode (.divu rs rt) &&& (0xFC00FFFF : Word) = 0x0000001B
    rw [m]
    simp only [encode, packR_and]
    simp [packR]
  · show _ = Instr.divu rs rt
    simp [rows, encode]

theorem OwnRow.mult (rs rt : RegNo) : OwnRow.Statement (.mult rs rt) := by
  have m : (0xFC00FFFF : Word) = packR 63 0 0 31 31 63 := by decide
  refine ⟨2, by decide, ?_, ?_⟩
  · show (Row.mk _ _ _ _).fits _ = true
    rw [fits_iff]
    show encode (.mult rs rt) &&& (0xFC00FFFF : Word) = 0x00000018
    rw [m]
    simp only [encode, packR_and]
    simp [packR]
  · show _ = Instr.mult rs rt
    simp [rows, encode]

theorem OwnRow.multu (rs rt : RegNo) : OwnRow.Statement (.multu rs rt) := by
  have m : (0xFC00FFFF : Word) = packR 63 0 0 31 31 63 := by decide
  refine ⟨3, by decide, ?_, ?_⟩
  · show (Row.mk _ _ _ _).fits _ = true
    rw [fits_iff]
    show encode (.multu rs rt) &&& (0xFC00FFFF : Word) = 0x00000019
    rw [m]
    simp only [encode, packR_and]
    simp [packR]
  · show _ = Instr.multu rs rt
    simp [rows, encode]

theorem OwnRow.bgez (rs : RegNo) (imm16 : Half) : OwnRow.Statement (.bgez rs imm16) := by
  have m : (0xFC1F0000 : Word) = packR 63 0 31 0 0 0 := by decide
  refine ⟨4, by decide, ?_, ?_⟩
  · show (Row.mk _ _ _ _).fits _ = true
    rw [fits_iff]
    show encode (.bgez rs imm16) &&& (0xFC1F0000 : Word) = 0x04010000
    rw [m]
    simp only [encode, packI_eq_packR, packR_and]
    simp [packR]
  · show _ = Instr.bgez rs imm16
    simp [rows, encode]

theorem OwnRow.jalr (rd rs : RegNo) : OwnRow.Statement (.jalr rd rs) := by
  have m : (0xFC1F07FF : Word) = packR 63 0 31 0 31 63 := by decide
  refine ⟨5, by decide, ?_, ?_⟩
  · show (Row.mk _ _ _ _).fits _ = true
    rw [fits_iff]
    show encode (.jalr rd rs) &&& (0xFC1F07FF : Word) = 0x00000009
    rw [m]
    simp only [encode, packR_and]
    simp [packR]
  · show _ = Instr.jalr rd rs
    simp [rows, encode]

theorem OwnRow.lbu (rt base : RegNo) (imm16 : Half) : OwnRow.Statement (.lbu rt base imm16) := by
  have m : (0xFC000000 : Word) = packR 63 0 0 0 0 0 := by decide
  refine ⟨6, by decide, ?_, ?_⟩
  · show (Row.mk _ _ _ _).fits _ = true
    rw [fits_iff]
    show encode (.lbu rt base imm16) &&& (0xFC000000 : Word) = 0x90000000
    rw [m]
    simp only [encode, packI_eq_packR, packR_and]
    simp [packR]
  · show _ = Instr.lbu rt base imm16
    simp [rows, encode]

theorem OwnRow.lhu (rt base : RegNo) (imm16 : Half) : OwnRow.Statement (.lhu rt base imm16) := by
  have m : (0xFC000000 : Word) = packR 63 0 0 0 0 0 := by decide
  refine ⟨7, by decide, ?_, ?_⟩
  · show (Row.mk _ _ _ _).fits _ = true
    rw [fits_iff]
    show encode (.lhu rt base imm16) &&& (0xFC000000 : Word) = 0x94000000
    rw [m]
    simp only [encode, packI_eq_packR, packR_and]
    simp [packR]
  · show _ = Instr.lhu rt base imm16
    simp [rows, encode]

theorem OwnRow.lb (rt base : RegNo) (imm16 : Half) : OwnRow.Statement (.lb rt base imm16) := by
  have m : (0xFC000000 : Word) = packR 63 0 0 0 0 0 := by decide
  refine ⟨8, by decide, ?_, ?_⟩
  · show (Row.mk _ _ _ _).fits _ = true
    rw [fits_iff]
    show encode (.lb rt base imm16) &&& (0xFC000000 : Word) = 0x80000000
    rw [m]
    simp only [encode, packI_eq_packR, packR_and]
    simp [packR]
  · show _ = Instr.lb rt base imm16
    simp [rows, encode]

theorem OwnRow.lh (rt base : RegNo) (imm16 : Half) : OwnRow.Statement (.lh rt base imm16) := by
  have m : (0xFC000000 : Word) = packR 63 0 0 0 0 0 := by decide
  refine ⟨9, by decide, ?_, ?_⟩
  · show (Row.mk _ _ _ _).fits _ = true
    rw [fits_iff]
    show encode (.lh rt base imm16) &&& (0xFC000000 : Word) = 0x84000000
    rw [m]
    simp only [encode, packI_eq_packR, packR_and]
    simp [packR]
  · show _ = Instr.lh rt base imm16
    simp [rows, encode]

theorem OwnRow.sb (rt base : RegNo) (imm16 : Half) : OwnRow.Statement (.sb rt base imm16) := by
  have m : (0xFC000000 : Word) = packR 63 0 0 0 0 0 := by decide
  refine ⟨10, by decide, ?_, ?_⟩
  · show (Row.mk _ _ _ _).fits _ = true
    rw [fits_iff]
    show encode (.sb rt base imm16) &&& (0xFC000000 : Word) = 0xA0000000
    rw [m]
    simp only [encode, packI_eq_packR, packR_and]
    simp [packR]
  · show _ = Instr.sb rt base imm16
    simp [rows, encode]

theorem OwnRow.sh (rt base : RegNo) (imm16 : Half) : OwnRow.Statement (.sh rt base imm16) := by
  have m : (0xFC000000 : Word) = packR 63 0 0 0 0 0 := by decide
  refine ⟨11, by decide, ?_, ?_⟩
  · show (Row.mk _ _ _ _).fits _ = true
    rw [fits_iff]
    show encode (.sh rt base imm16) &&& (0xFC000000 : Word) = 0xA4000000
    rw [m]
    simp only [encode, packI_eq_packR, packR_and]
    simp [packR]
  · show _ = Instr.sh rt base imm16
    simp [rows, encode]

theorem OwnRow.brk : OwnRow.Statement (.brk) := 
  ⟨12, by decide, by decide, by decide⟩

theorem OwnRow.syscall : OwnRow.Statement (.syscall) := 
  ⟨13, by decide, by decide, by decide⟩

theorem OwnRow.eret : OwnRow.Statement (.eret) := 
  ⟨14, by decide, by decide, by decide⟩

theorem OwnRow.mfhi (rd : RegNo) : OwnRow.Statement (.mfhi rd) := by
  have m : (0xFFFF07FF : Word) = packR 63 31 31 0 31 63 := by decide
  refine ⟨15, by decide, ?_, ?_⟩
  · show (Row.mk _ _ _ _).fits _ = true
    rw [fits_iff]
    show encode (.mfhi rd) &&& (0xFFFF07FF : Word) = 0x00000010
    rw [m]
    simp only [encode, packR_and]
    simp [packR]
  · show _ = Instr.mfhi rd
    simp [rows, encode]

theorem OwnRow.mflo (rd : RegNo) : OwnRow.Statement (.mflo rd) := by
  have m : (0xFFFF07FF : Word) = packR 63 31 31 0 31 63 := by decide
  refine ⟨16, by decide, ?_, ?_⟩
  · show (Row.mk _ _ _ _).fits _ = true
    rw [fits_iff]
    show encode (.mflo rd) &&& (0xFFFF07FF : Word) = 0x00000012
    rw [m]
    simp only [encode, packR_and]
    simp [packR]
  · show _ = Instr.mflo rd
    simp [rows, encode]

theorem OwnRow.mthi (rs : RegNo) : OwnRow.Statement (.mthi rs) := by
  have m : (0xFC1FFFFF : Word) = packR 63 0 31 31 31 63 := by decide
  refine ⟨17, by decide, ?_, ?_⟩
  · show (Row.mk _ _ _ _).fits _ = true
    rw [fits_iff]
    show encode (.mthi rs) &&& (0xFC1FFFFF : Word) = 0x00000011
    rw [m]
    simp only [encode, packR_and]
    simp [packR]
  · show _ = Instr.mthi rs
    simp [rows, encode]

theorem OwnRow.mtlo (rs : RegNo) : OwnRow.Statement (.mtlo rs) := by
  have m : (0xFC1FFFFF : Word) = packR 63 0 31 31 31 63 := by decide
  refine ⟨18, by decide, ?_, ?_⟩
  · show (Row.mk _ _ _ _).fits _ = true
    rw [fits_iff]
    show encode (.mtlo rs) &&& (0xFC1FFFFF : Word) = 0x00000013
    rw [m]
    simp only [encode, packR_and]
    simp [packR]
  · show _ = Instr.mtlo rs
    simp [rows, encode]

theorem OwnRow.mfc0 (rt rd : RegNo) : OwnRow.Statement (.mfc0 rt rd) := by
  have m : (0xFFE007FF : Word) = packR 63 31 0 0 31 63 := by decide
  refine ⟨19, by decide, ?_, ?_⟩
  · show (Row.mk _ _ _ _).fits _ = true
    rw [fits_iff]
    show encode (.mfc0 rt rd) &&& (0xFFE007FF : Word) = 0x40000000
    rw [m]
    simp only [encode, packR_and]
    simp [packR]
  · show _ = Instr.mfc0 rt rd
    simp [rows, encode]

theorem OwnRow.mtc0 (rt rd : RegNo) : OwnRow.Statement (.mtc0 rt rd) := by
  have m : (0xFFE007FF : Word) = packR 63 31 0 0 31 63 := by decide
  refine ⟨20, by decide, ?_, ?_⟩
  · show (Row.mk _ _ _ _).fits _ = true
    rw [fits_iff]
    show encode (.mtc0 rt rd) &&& (0xFFE007FF : Word) = 0x40800000
    rw [m]
    simp only [encode, packR_and]
    simp [packR]
  · show _ = Instr.mtc0 rt rd
    simp [rows, encode]

theorem OwnRow.clz (rd rs : RegNo) : OwnRow.Statement (.clz rd rs) := by
  have m : (0xFC0007FF : Word) = packR 63 0 0 0 31 63 := by decide
  refine ⟨21, by decide, ?_, ?_⟩
  · show (Row.mk _ _ _ _).fits _ = true
    rw [fits_iff]
    show encode (.clz rd rs) &&& (0xFC0007FF : Word) = 0x70000020
    rw [m]
    simp only [encode, packR_and]
    simp [packR]
  · show _ = Instr.clz rd rs
    simp [rows, encode]

theorem OwnRow.teq (rs rt : RegNo) : OwnRow.Statement (.teq rs rt) := by
  have m : (0xFC00003F : Word) = packR 63 0 0 0 0 63 := by decide
  refine ⟨22, by decide, ?_, ?_⟩
  · show (Row.mk _ _ _ _).fits _ = true
    rw [fits_iff]
    show encode (.teq rs rt) &&& (0xFC00003F : Word) = 0x00000034
    rw [m]
    simp only [encode, packR_and]
    simp [packR]
  · show _ = Instr.teq rs rt
    simp [rows, encode]

end Sys2Proof.Laws
end

