-- ==== Sys2Proof/Tests/Slice0.lean ====
section
/-! SUPPORT. The model's own tests. Expected values are those of spec/95_test_vectors.md (the section is named at each group), or worked out by hand from
the rule named. After them, for each obligation with hypotheses, a witness: a state and operands that meet them all. -/

namespace Sys2Proof.Tests

open Sys2Proof.Machine

/-! ### Well-formedness: each check refuses an ill-formed term -/

theorem test_wf_mfc0 : (Instr.mfc0 26 14).wf = true ∧ (Instr.mfc0 8 9).wf = false := by decide
theorem test_wf_mtc0 : (Instr.mtc0 8 30).wf = true ∧ (Instr.mtc0 0 0).wf = false := by decide
theorem test_wf_aligned : Word.aligned 0x00400004 = true ∧ Word.aligned 0x00400002 = false := by decide
theorem test_wf_region : Region.wf ⟨0xFFFFFFFF, 1⟩ = true ∧ Region.wf ⟨0xFFFFFFFF, 2⟩ = false := by decide
theorem test_wf_excVector : Config.atReset.wf = true ∧ Config.wf { Config.atReset with excVector := 0x80000181 } = false := by decide
theorem test_wf_resetPc : Config.wf { Config.atReset with resetPc := 0x00400002 } = false := by decide
theorem test_wf_haltPc : Config.wf { Config.atReset with haltPc := some 0x00400001 } = false := by decide
theorem test_wf_codeRegion : Config.wf { Config.atReset with codeRegion := [⟨0x00400000, 0xFFFFFFFF⟩] } = false := by decide
theorem test_wf_dataRegion : Config.wf { Config.atReset with dataRegion := [⟨0xFFFFFFFF, 2⟩] } = false := by decide

/-! ### Decoding: one word of every row, its fields written out from 30_encoding.md R52 and R58 as `op_rs_rt_rd_sa_funct` or `op_rs_rt_imm16` -/

theorem test_decode_div : decode 0b000000_01000_01001_00000_00000_011010 = .ok (.div 8 9) := rfl
theorem test_decode_divu : decode 0b000000_01000_01001_00000_00000_011011 = .ok (.divu 8 9) := rfl
theorem test_decode_mult : decode 0b000000_01000_01001_00000_00000_011000 = .ok (.mult 8 9) := rfl
theorem test_decode_multu : decode 0b000000_01000_01001_00000_00000_011001 = .ok (.multu 8 9) := rfl
theorem test_decode_bgez : decode 0b000001_01000_00001_1111111111111101 = .ok (.bgez 8 0xFFFD) := rfl
theorem test_decode_jalr : decode 0b000000_11001_00000_11111_00000_001001 = .ok (.jalr 31 25) := rfl
theorem test_decode_lbu : decode 0b100100_10000_01010_1111111111111100 = .ok (.lbu 10 16 0xFFFC) := rfl
theorem test_decode_lhu : decode 0b100101_10000_01010_1111111111111100 = .ok (.lhu 10 16 0xFFFC) := rfl
theorem test_decode_lb : decode 0b100000_10000_01010_1111111111111100 = .ok (.lb 10 16 0xFFFC) := rfl
theorem test_decode_lh : decode 0b100001_10000_01010_1111111111111100 = .ok (.lh 10 16 0xFFFC) := rfl
theorem test_decode_sb : decode 0b101000_10000_01001_0000000000000101 = .ok (.sb 9 16 5) := rfl
theorem test_decode_sh : decode 0b101001_10000_01000_0000000000000110 = .ok (.sh 8 16 6) := rfl
theorem test_decode_break : decode 0b000000_11111_11111_11111_11111_001101 = .ok .brk := rfl
theorem test_decode_syscall : decode 0b000000_00000_00000_00000_00000_001100 = .ok .syscall := rfl
theorem test_decode_eret : decode 0b010000_10000_00000_00000_00000_011000 = .ok .eret := rfl
theorem test_decode_mfhi : decode 0b000000_00000_00000_01010_00000_010000 = .ok (.mfhi 10) := rfl
theorem test_decode_mflo : decode 0b000000_00000_00000_01011_00000_010010 = .ok (.mflo 11) := rfl
theorem test_decode_mthi : decode 0b000000_01000_00000_00000_00000_010001 = .ok (.mthi 8) := rfl
theorem test_decode_mtlo : decode 0b000000_01001_00000_00000_00000_010011 = .ok (.mtlo 9) := rfl
theorem test_decode_mfc0 : decode 0b010000_00000_11010_01110_00000_000000 = .ok (.mfc0 26 14) := rfl
theorem test_decode_mtc0 : decode 0b010000_00100_01000_01110_00000_000000 = .ok (.mtc0 8 14) := rfl
theorem test_decode_clz : decode 0b011100_01000_01010_01010_00000_100000 = .ok (.clz 10 8) := rfl
theorem test_decode_teq : decode 0b000000_01000_01001_11111_11111_110100 = .ok (.teq 8 9) := rfl

/-- Section 2: a set bit where a row has a fixed 0, and words of none of the 23 rows. -/
theorem test_decode_refuses :
    [0x01090058, 0x01090818, 0x0000005A, 0x05110000, 0x0321F809, 0x03E00008, 0x00000000, 0x24080001, 0x42000058, 0x01005010,
      0x01010011, 0x401A7001, 0x40A06000, 0x70000021].all (fun w => decodeTableWord 32 w == none) = true := by decide

theorem test_encode_jalr : encode (.jalr 31 25) = 0x0320F809 := by decide
theorem test_encode_mtc0 : encode (.mtc0 8 14) = 0x40887000 := by decide
theorem test_encode_lbu : encode (.lbu 10 16 0x8000) = 0x920A8000 := by decide

/-- The bytes of a word in memory (20_memory.md R36): `0x01090018` is `18 00 09 01`, big-endian `01 09 00 18`. -/
theorem test_split_word : splitWord false 0x01090018 = [0x18, 0x00, 0x09, 0x01] ∧ splitWord true 0x01090018 = [0x01, 0x09, 0x00, 0x18] := by decide
theorem test_decode_bytes : (decodeBytes true [0x01, 0x09, 0x00, 0x18, 0xFF]).toOption = some (.mult 8 9, [0xFF]) := by decide
theorem test_decode_too_short : decodeBytes false [0x18, 0x00, 0x09] = .error .tooShort := rfl

/-! ### Small states: the example environment of 95_test_vectors.md -/

/-- The parameters of the examples. -/
def env (big slots : Bool) : Config where
  bigEndian := big
  delaySlots := slots
  excVector := 0x80000180
  resetPc := 0x00400000
  haltPc := none
  codeRegion := [⟨0x00400000, 0x100⟩, ⟨0x80000180, 0x80⟩]
  dataRegion := [⟨0x10010000, 0x100⟩, ⟨0, 4⟩]

/-- Registers written one after another. -/
def withRegs (s : State) (l : List (RegNo × Word)) : State := l.foldl (fun s p => s.writeReg p.1 p.2) s

/-- A start state with some registers. -/
def start (l : List (RegNo × Word)) : State := withRegs (State.resetWith (env false true)) l

/-- The start state of section 6, in a byte order. -/
def data (big : Bool) : State :=
  withRegs { State.resetWith (env big true) with
    mem := Memory.writeBytes [] 0x10010000 [0x80, 0x7F, 0xFE, 0x01, 0x34, 0x12, 0xFF, 0xFF]
    status := 0x0000FF01, cause := 0x80000300 } [(16, 0x10010004), (10, 0xAAAAAAAA)]

/-- The instruction answers a next state, of which `p` holds. -/
def after (i : Instr) (s : State) (p : State → Bool) : Bool :=
  match exec i s with
  | .next t => p t
  | _ => false

/-- The instruction is refused so. -/
def refuses (i : Instr) (s : State) (r : Refusal) : Bool :=
  match exec i s with
  | .refused q => q == r
  | _ => false

/-- The instruction faults so. -/
def faults (i : Instr) (s : State) (f : Fault) : Bool :=
  match exec i s with
  | .fault g => g == f
  | _ => false

/-! ### Multiply and divide (sections 3 and 4) -/

theorem test_mult : after (.mult 8 9) (start [(8, 0x7FFFFFFF), (9, 0x80000000)])
    (fun t => t.hi == 0xC0000000 && t.lo == 0x80000000 && t.pc == 0x00400004) = true := by decide
theorem test_mult_both_negative : after (.mult 8 9) (start [(8, 0xFFFFFFFF), (9, 0xFFFFFFFF)]) (fun t => t.hi == 0 && t.lo == 1) = true := by decide
theorem test_multu : after (.multu 8 9) (start [(8, 0x12345678), (9, 0x9ABCDEF0)]) (fun t => t.hi == 0x0B00EA4E && t.lo == 0x242D2080) = true := by decide
theorem test_multu_max : after (.multu 8 9) (start [(8, 0xFFFFFFFF), (9, 0xFFFFFFFF)]) (fun t => t.hi == 0xFFFFFFFE && t.lo == 1) = true := by decide
theorem test_div : after (.div 8 9) (start [(8, 0xFFFFFFF9), (9, 3)]) (fun t => t.hi == 0xFFFFFFFF && t.lo == 0xFFFFFFFE) = true := by decide
theorem test_div_corner : after (.div 8 9) (start [(8, 0x80000000), (9, 0xFFFFFFFF)]) (fun t => t.hi == 0 && t.lo == 0x80000000) = true := by decide
theorem test_divu : after (.divu 8 9) (start [(8, 0xFFFFFFFB), (9, 7)]) (fun t => t.hi == 6 && t.lo == 0x24924923) = true := by decide
theorem test_divu_by_zero : after (.divu 8 9) (start [(8, 5)]) (fun t => t.pc == 0x00400004 && t.draws == 1) = true := by decide

/-! ### HI and LO moves (section 5) -/

theorem test_mfhi : after (.mfhi 10) { start [] with hi := 0x11111111, lo := 0x22222222 } (fun t => t.readReg 10 == 0x11111111) = true := by decide
theorem test_mfhi_zero : after (.mfhi 0) { start [] with hi := 0x11111111 } (fun t => t.readReg 0 == 0 && t.hi == 0x11111111) = true := by decide
theorem test_mflo : after (.mflo 11) { start [] with hi := 0x11111111, lo := 0x22222222 } (fun t => t.readReg 11 == 0x22222222) = true := by decide
theorem test_mthi : after (.mthi 8) { start [(8, 0xCAFEBABE)] with hi := 1, lo := 2 } (fun t => t.hi == 0xCAFEBABE && t.lo == 2) = true := by decide
theorem test_mtlo : after (.mtlo 9) { start [(9, 0x0BADF00D)] with hi := 1, lo := 2 } (fun t => t.hi == 1 && t.lo == 0x0BADF00D) = true := by decide

/-! ### Loads and stores (section 6, P2) -/

theorem test_lb : after (.lb 10 16 0xFFFE) (data true) (fun t => t.readReg 10 == 0xFFFFFFFE) = true := by decide
theorem test_lbu : after (.lbu 10 16 0xFFFE) (data false) (fun t => t.readReg 10 == 0xFE) = true := by decide
theorem test_lbu_wraps : after (.lbu 10 16 4) { start [(16, 0xFFFFFFFF)] with mem := [(3, 0x77)] } (fun t => t.readReg 10 == 0x77) = true := by decide
theorem test_lh_little : after (.lh 10 16 0xFFFE) (data false) (fun t => t.readReg 10 == 0x000001FE) = true := by decide
theorem test_lh_big : after (.lh 10 16 0xFFFE) (data true) (fun t => t.readReg 10 == 0xFFFFFE01) = true := by decide
theorem test_lhu_little : after (.lhu 10 16 0) (data false) (fun t => t.readReg 10 == 0x1234) = true := by decide
theorem test_lhu_odd : after (.lhu 10 16 1) (data true)
    (fun t => t.readReg 10 == 0xAAAAAAAA && t.epc == 0x00400004 && t.cause == 0x80000310 && t.status == 0xFF03 && t.pc == 0x80000180) = true := by decide
theorem test_sb : after (.sb 9 16 1) (withRegs (data true) [(9, 0xFFFFABCD)]) (fun t => t.mem.read 0x10010005 == some 0xCD) = true := by decide
theorem test_sb_code : refuses (.sb 8 16 0) (start [(16, 0x00400000)]) .storeToCode = true := by decide
theorem test_sh_big : after (.sh 9 16 0xFFFE) (withRegs (data true) [(9, 0xFFFFABCD)])
    (fun t => t.mem.read 0x10010002 == some 0xAB && t.mem.read 0x10010003 == some 0xCD) = true := by decide
theorem test_sh_odd : after (.sh 10 16 3) (data false) (fun t => t.mem == (data false).mem && t.cause == 0x80000314 && t.pc == 0x80000180) = true := by decide
theorem test_lb_unmapped : faults (.lb 8 16 0) (start [(16, 0x20000000)]) .loadNotAdmitted = true := by decide

/-! ### Control transfer (section 7, P7) -/

theorem test_bgez_taken : after (.bgez 8 0xFFFD) { start [] with pc := 0x00400010, npc := 0x00400014 }
    (fun t => t.pc == 0x00400014 && t.npc == 0x00400008 && t.inDelay) = true := by decide
theorem test_bgez_not_taken_no_slot : after (.bgez 8 4) (withRegs { State.resetWith (env false false) with pc := 0x00400010, npc := 0x00400014 } [(8, 0x80000000)])
    (fun t => t.pc == 0x00400014 && t.npc == 0x00400018 && !t.inDelay) = true := by decide
theorem test_jalr_same_register : after (.jalr 25 25) { start [(25, 0x00400100)] with pc := 0x00400020, npc := 0x00400024 }
    (fun t => t.readReg 25 == 0x00400028 && t.pc == 0x00400024 && t.npc == 0x00400100 && t.inDelay) = true := by decide
theorem test_jalr_no_slot : after (.jalr 31 25) (withRegs { State.resetWith (env false false) with pc := 0xFFFFFFFC, npc := 0 } [(25, 0x00400100)])
    (fun t => t.readReg 31 == 0 && t.pc == 0x00400100 && t.npc == 0x00400104) = true := by decide

/-! ### Traps and CP0 (section 8, P7) -/

theorem test_break : after .brk { start [] with pc := 0x00400040, npc := 0x00400044, cause := 0x7C }
    (fun t => t.cause == 0x24 && t.epc == 0x00400044 && t.status == 2 && t.pc == 0x80000180 && t.npc == 0x80000184) = true := by decide
theorem test_break_nested : refuses .brk { start [] with status := 2 } .nestedException = true := by decide
theorem test_syscall : after .syscall { start [] with pc := 0x00400040, status := 0xFF01, cause := 0xFFFFFFFF }
    (fun t => t.cause == 0xFFFFFFA3 && t.status == 0xFF03 && t.epc == 0x00400044) = true := by decide
theorem test_syscall_in_slot : refuses .syscall { start [] with inDelay := true } .exceptionInDelaySlot = true := by decide
theorem test_teq : after (.teq 8 9) { start [(8, 7), (9, 7)] with pc := 0x00400050 } (fun t => t.epc == 0x00400054 && t.cause == 0x34) = true := by decide
theorem test_teq_different : after (.teq 8 9) (start [(8, 7), (9, 8)]) (fun t => t == (start [(8, 7), (9, 8)]).advance) = true := by decide
theorem test_eret : after .eret { start [] with status := 2, epc := 0x00400044, llbit := true }
    (fun t => t.status == 0 && !t.llbit && t.pc == 0x00400044 && t.npc == 0x00400048 && !t.inDelay) = true := by decide
theorem test_eret_error : after .eret { start [] with status := 6, epc := 0x00400044, errorEpc := 0x00400100 } (fun t => t.status == 2 && t.pc == 0x00400100) = true := by decide
theorem test_mfc0 : after (.mfc0 8 30) { start [] with errorEpc := 0x12345678 } (fun t => t.readReg 8 == 0x12345678) = true := by decide
theorem test_mfc0_unknown : refuses (.mfc0 8 9) (start []) (.unknownCp0Register 9) = true := by decide
theorem test_mtc0 : after (.mtc0 8 14) (start [(8, 0x00400060)]) (fun t => t.epc == 0x00400060) = true := by decide
theorem test_mtc0_status : after (.mtc0 8 12) (start [(8, 0xFFFFFFFF)]) (fun t => t.status == 0xFFFFFFFF) = true := by decide

/-! ### CLZ (section 9) -/

theorem test_clz : after (.clz 10 8) (start [(8, 0x55555553)]) (fun t => t.readReg 10 == 1) = true := by decide
theorem test_clz_zero : after (.clz 10 8) (start []) (fun t => t.readReg 10 == 32) = true := by decide

/-! ### The step (P7) -/

/-- A step answers a next state of which `p` holds. -/
def stepped (s : State) (p : State → Bool) : Bool :=
  match step s with
  | .next t => p t
  | _ => false

/-- A step faults so. -/
def stepFaults (s : State) (f : Fault) : Bool :=
  match step s with
  | .fault g => g == f
  | _ => false

/-- A step is refused so. -/
def stepRefuses (s : State) (r : Refusal) : Bool :=
  match step s with
  | .refused q => q == r
  | _ => false

theorem test_step_from_reset : stepped (State.reset.withFetchWord 32 0x00000013) (fun t => t.pc == 0x00400004 && t.lo == 0) = true := by decide
theorem test_step_big : stepped ((withRegs (State.resetWith (env true true)) [(8, 0x00010000)]).withFetchWord 32 0x71005020) (fun t => t.readReg 10 == 15) = true := by decide
theorem test_step_unknown : stepRefuses (State.reset.withFetchWord 32 0) (.unknownEncoding 0) = true := by decide
theorem test_step_misaligned : stepFaults { start [] with pc := 0x00400022 } .misalignedFetch = true := by decide
theorem test_step_outside : stepFaults { start [] with pc := 0x00400100 } .fetchNotAdmitted = true := by decide
theorem test_step_unwritten : stepFaults State.reset .readOfUnwrittenMemory = true := by decide
theorem test_step_halt : stepFaults { start [] with cfg := { env false true with haltPc := some 0x00400000 } } .runEnded = true := by decide

/-! ### Witnesses: every obligation that has hypotheses -/

/-- The match word of every row meets its clause, and the word 0x8FFFFFFF the last clause. -/
theorem witness_DecodeFollowsThePatternTable :
    Claims.patterns.all (fun p => p.2 &&& p.1 == p.2) = true ∧
    Claims.patterns.all (fun p => !((0x8FFFFFFF : Word) &&& p.1 == p.2)) = true := ⟨by decide, by decide⟩

theorem witness_DecodedWordEncodesToItsKeptBits :
    decode 0x03FFFFCD = .ok .brk ∧ decode 0x710A5020 = .ok (.clz 10 8) ∧ decode 0x83FFFFFF = .ok (.lb 31 31 0xFFFF) := ⟨rfl, rfl, rfl⟩

/-- CLZ at the reset address, in both byte orders. -/
def clzAt (big : Bool) : State :=
  { State.resetWith (env big true) with mem := Memory.writeBytes [] 0x00400000 (splitWord big 0x71005020) }

theorem witness_StepRunsTheDecodedInstruction :
    (clzAt false).cfg.haltPc ≠ some (clzAt false).pc ∧ (clzAt false).pc.toNat % 4 = 0 ∧
    (∀ k < 4, (clzAt false).cfg.inCode ((clzAt false).pc.toNat + k) = true) ∧
    (clzAt false).mem.read 0x00400000 = some 0x20 ∧ (clzAt false).mem.read 0x00400001 = some 0x50 ∧
    (clzAt false).mem.read 0x00400002 = some 0x00 ∧ (clzAt false).mem.read 0x00400003 = some 0x71 ∧
    (decode ((0x71#8 : Byte) ++ (0x00#8 : Byte) ++ (0x50#8 : Byte) ++ (0x20#8 : Byte))).toOption = some (.clz 10 8) := by decide

theorem witness_StepRunsTheDecodedInstruction_big :
    (clzAt true).cfg.haltPc ≠ some (clzAt true).pc ∧ (clzAt true).pc.toNat % 4 = 0 ∧
    (∀ k < 4, (clzAt true).cfg.inCode ((clzAt true).pc.toNat + k) = true) ∧
    (clzAt true).mem.read 0x00400000 = some 0x71 ∧ (clzAt true).mem.read 0x00400001 = some 0x00 ∧
    (clzAt true).mem.read 0x00400002 = some 0x50 ∧ (clzAt true).mem.read 0x00400003 = some 0x20 ∧
    (decode ((0x71#8 : Byte) ++ (0x00#8 : Byte) ++ (0x50#8 : Byte) ++ (0x20#8 : Byte))).toOption = some (.clz 10 8) := by decide

/-- The run ended; a misaligned `pc`; the first word past the code region, and the last in it (whose word is 0). -/
theorem witness_StepStopsBeforeAnInstructionInThisOrder :
    (let s := { start [] with cfg := { env false true with haltPc := some 0x00400000 } };
      s.cfg.haltPc = some s.pc ∧ s.inDelay = false) ∧
    (let s := { start [] with pc := 0x00400002 };
      ¬ (s.cfg.haltPc = some s.pc ∧ s.inDelay = false) ∧ ¬ s.pc.toNat % 4 = 0) ∧
    (let s := { start [] with pc := 0x00400100 };
      ¬ (s.cfg.haltPc = some s.pc ∧ s.inDelay = false) ∧ s.pc.toNat % 4 = 0 ∧ ∃ k < 4, s.cfg.inCode (s.pc.toNat + k) = false) := by
  refine ⟨by decide, by decide, by decide, by decide, 0, by decide, by decide⟩

theorem witness_StepStopsBeforeAnInstructionInThisOrder_unknown :
    let s := { start [] with pc := 0x004000FC, mem := Memory.writeBytes [] 0x004000FC [0, 0, 0, 0] }
    (¬ (s.cfg.haltPc = some s.pc ∧ s.inDelay = false) ∧ s.pc.toNat % 4 = 0 ∧ (∀ k < 4, s.cfg.inCode (s.pc.toNat + k) = true) ∧
      ∀ k < 4, s.mem.read (s.pc.toNat + k) = some (byteOf (0 : Word) (if s.cfg.bigEndian then 3 - k else k))) ∧
    ∀ i, ¬ Claims.reads 0 i := by
  refine ⟨by decide, fun i h => ?_⟩
  have e : decode 0 = .error (.unknownEncoding 0) := rfl
  rw [Claims.reads, e] at h
  cases h

/-- The last word of the code region, its last byte alone unwritten. -/
theorem witness_StepStopsBeforeAnInstructionInThisOrder_unwritten :
    let s := { start [] with pc := 0x004000FC, mem := Memory.writeBytes [] 0x004000FC [0x20, 0x50, 0] }
    ¬ (s.cfg.haltPc = some s.pc ∧ s.inDelay = false) ∧ s.pc.toNat % 4 = 0 ∧ (∀ k < 4, s.cfg.inCode (s.pc.toNat + k) = true) ∧
      s.mem.read (s.pc.toNat + 2) = some 0 ∧ s.mem.read (s.pc.toNat + 3) = none := by decide

theorem witness_PlacedWordIsTheNextInstruction : Claims.multipleOf4 State.reset.pc := by unfold Claims.multipleOf4; decide

theorem witness_ResetMeetsTheInvariant : Config.atReset.wf = true ∧ (env true false).wf = true := by decide

/-- A step of CLZ, from a state that meets the invariant. -/
theorem witness_StepKeepsTheInvariant : (clzAt false).Inv ∧ ∃ t, step (clzAt false) = .next t := by
  refine ⟨⟨by decide, by decide, by decide, fun _ => rfl, fun h => by cases h⟩, _, rfl⟩

theorem witness_ProgramTextNeverChanges : (∃ t, (clzAt false).run 1 = .next t) ∧ (clzAt false).cfg.inCode 0x004000FF = true := ⟨⟨_, rfl⟩, by decide⟩

theorem witness_OnlyJalrAndEretMisalignPc :
    let s := start [(25, 0x00400100)]
    s.pc.toNat % 4 = 0 ∧ s.npc.toNat % 4 = 0 ∧ s.cfg.excVector.toNat % 4 = 0 ∧ (s.readReg 25).toNat % 4 = 0 ∧
    (if s.status.getLsbD 2 then s.errorEpc else s.epc).toNat % 4 = 0 ∧
    after (.jalr 31 25) s (fun _ => true) = true ∧ after .eret s (fun _ => true) = true ∧ after .brk s (fun _ => true) = true := by decide

theorem witness_OnlyTheDestinationRegisterChanges :
    (∃ t, exec (.clz 10 8) (start []) = .next t) ∧ Claims.destination (.clz 10 8) ≠ some 11 := ⟨⟨_, rfl⟩, by decide⟩

theorem witness_RegisterZeroReadsZeroAndDiscardsWrites :
    Claims.destination (.clz 0 8) = some 0 ∧ ∃ t, exec (.clz 0 8) (start []) = .next t := ⟨by decide, _, rfl⟩

theorem witness_OnlyStoresChangeMemory :
    (∃ t, exec (.lb 10 16 0) (data false) = .next t) ∧ ∀ rt base imm16, Instr.lb 10 16 0 ≠ .sb rt base imm16 ∧ Instr.lb 10 16 0 ≠ .sh rt base imm16 :=
  ⟨⟨_, rfl⟩, fun _ _ _ => ⟨by simp, by simp⟩⟩

theorem witness_StoresChangeTheirBytesOnly :
    (∃ t, exec (.sb 10 16 0) (data false) = .next t) ∧ (∃ t, exec (.sh 10 16 0) (data false) = .next t) ∧
    ∃ t, exec (.sh 10 16 1) (data false) = .next t := ⟨⟨_, rfl⟩, ⟨_, rfl⟩, _, rfl⟩

theorem witness_OnlyTheseWriteHiAndLo :
    after (.mult 8 9) (start [(8, 0xFFFFFFFF), (9, 3)]) (fun t => t.hi != 0 && t.lo != 0) = true ∧
    after (.mthi 8) (start [(8, 5)]) (fun t => t.hi != 0) = true ∧ after (.mtlo 8) (start [(8, 5)]) (fun t => t.lo != 0) = true := by decide

theorem witness_HiAndLoReachNothingElse : ∀ rd, Instr.div 8 9 ≠ .mfhi rd ∧ Instr.div 8 9 ≠ .mflo rd := fun _ => ⟨by simp, by simp⟩

theorem witness_LLbitIsClearedByEretAndReadByNothing : after .eret { start [] with llbit := true } (fun t => !t.llbit) = true := by decide

theorem witness_OnlyTheseWriteCp0 :
    after .eret { start [] with status := 6 } (fun t => t.status != 6) = true ∧
    after .brk (start []) (fun t => t.status != 0 && t.cause != 0 && t.epc != 0) = true ∧
    after (.mtc0 8 30) (start [(8, 5)]) (fun t => t.errorEpc != 0) = true := by decide

theorem witness_OtherStatusBitsHaveNoEffect :
    (∀ rt, Instr.eret ≠ .mfc0 rt 12) ∧ (0xFFFFFFFD : Word).getLsbD 1 = (0x00000004 : Word).getLsbD 1 ∧
    (0xFFFFFFFD : Word).getLsbD 2 = (0x00000004 : Word).getLsbD 2 := ⟨fun _ => by simp, by decide, by decide⟩

theorem witness_OtherInstructionsAdvance :
    (∃ t, exec (.teq 8 9) (start [(8, 7), (9, 8)]) = .next t) ∧ Claims.raised (start [(8, 7), (9, 8)]) (.teq 8 9) = none ∧
    (∀ rs imm16, Instr.teq 8 9 ≠ .bgez rs imm16) ∧ (∀ rd rs, Instr.teq 8 9 ≠ .jalr rd rs) :=
  ⟨⟨_, rfl⟩, by decide, fun _ _ => by simp, fun _ _ => by simp⟩

/-- Each exception raised, outside a delay slot with both bits 0; in a slot; with EXL 1; with ERL 1; and an instruction that raises none. -/
theorem witness_ExactlyTheRaisingInstructionsEnterTheHandler :
    Claims.raised (data false) (.lh 10 16 0xFFFD) = some .addressErrorLoad ∧ Claims.raised (data false) (.sh 10 16 3) = some .addressErrorStore ∧
    Claims.raised (data false) (.teq 0 0) = some .trap ∧ (data false).inDelay = false ∧ (data false).status.getLsbD 1 = false ∧
    (data false).status.getLsbD 2 = false ∧ Claims.raised { start [] with inDelay := true } .syscall = some .systemCall ∧
    Claims.raised { start [] with status := 2 } .brk = some .breakpoint ∧ (0x00000002 : Word).getLsbD 1 = true ∧
    (0x00000004 : Word).getLsbD 2 = true ∧ Claims.raised (data false) (.lh 10 16 0xFFFE) = none := by decide

/-- Instructions that raise none and complete: an LH, and an ERET, which no clause about EPC, Cause and EXL shuts out. -/
theorem witness_ExactlyTheRaisingInstructionsEnterTheHandler_none :
    (Claims.raised (data false) (.lh 10 16 0xFFFE) = none ∧ ∃ t, exec (.lh 10 16 0xFFFE) (data false) = .next t) ∧
    (∀ rt, Instr.lh 10 16 0xFFFE ≠ .mtc0 rt 14 ∧ Instr.lh 10 16 0xFFFE ≠ .mtc0 rt 13 ∧ Instr.lh 10 16 0xFFFE ≠ .mtc0 rt 12) ∧
    Claims.raised { start [] with status := 6 } .eret = none ∧
    ∃ t, exec .eret { start [] with status := 6 } = .next t ∧ t.status.getLsbD 1 = true :=
  ⟨⟨by decide, _, rfl⟩, fun _ => by simp, rfl, _, rfl, by decide⟩

theorem witness_WithoutDelaySlotsThereIsNone :
    (State.resetWith (env false false)).cfg.delaySlots = false ∧ (State.resetWith (env false false)).inDelay = false ∧
    ∃ t, exec (.bgez 0 1) (State.resetWith (env false false)) = .next t := ⟨rfl, rfl, _, rfl⟩

theorem witness_MultLeavesTheSignedProduct : (0x01090018 : Word) &&& 0xFC00FFFF = 0x00000018 := by decide
theorem witness_MultuLeavesTheUnsignedProduct :
    (0x01090019 : Word) &&& 0xFC00FFFF = 0x00000019 ∧ ∃ u, exec (.mult 8 9) (start []) = .next u := ⟨by decide, _, rfl⟩
theorem witness_DivLeavesQuotientAndRemainder :
    (start [(8, 7), (9, 0xFFFFFFFD)]).readReg 9 ≠ 0 ∧
    (let s := start [(8, 0x80000000), (9, 0xFFFFFFFF)]; s.readReg 9 ≠ 0 ∧ s.readReg 8 = 0x80000000 ∧ s.readReg 9 = 0xFFFFFFFF) := by decide
theorem witness_DivuLeavesQuotientAndRemainder : (start [(8, 7), (9, 1)]).readReg 9 ≠ 0 := by decide
theorem witness_DivisionByZeroCompletes : (start [(8, 7)]).readReg 9 = 0 := by decide
theorem witness_MfhiAndMfloCopyToTheRegister :
    (0x00005010 : Word) &&& 0xFFFF07FF = 0x00000010 ∧ (0x00005812 : Word) &&& 0xFFFF07FF = 0x00000012 := by decide
theorem witness_MthiAndMtloCopyFromTheRegister :
    (0x01000011 : Word) &&& 0xFC1FFFFF = 0x00000011 ∧ (0x01200013 : Word) &&& 0xFC1FFFFF = 0x00000013 := by decide

/-- The last byte of the data region. -/
theorem witness_ByteLoadsExtendTheByte :
    (0x820AFFFC : Word) &&& 0xFC000000 = 0x80000000 ∧ (0x920AFFFC : Word) &&& 0xFC000000 = 0x90000000 ∧
    (let s := { start [(16, 0x10010100)] with mem := [(0x100100FF, 0x80)] };
      (Claims.address s 16 0xFFFF).toNat = 0x100100FF ∧ (∀ k < 1, s.cfg.inData (0x100100FF + k) = true ∨ s.cfg.inCode (0x100100FF + k) = true) ∧
      s.mem.read 0x100100FF = some 0x80) := by decide

/-- The last halfword of the data region. -/
theorem witness_HalfwordLoadsExtendTheHalfword :
    let s := { start [(16, 0x10010100)] with mem := [(0x100100FE, 0x80), (0x100100FF, 0x7F)] }
    (Claims.address s 16 0xFFFE).toNat = 0x100100FE ∧ 0x100100FE % 2 = 0 ∧
    (∀ k < 2, s.cfg.inData (0x100100FE + k) = true ∨ s.cfg.inCode (0x100100FE + k) = true) ∧
    s.mem.read 0x100100FE = some 0x80 ∧ s.mem.read (0x100100FE + 1) = some 0x7F := by decide

/-- The byte past the data region, its last byte unwritten, and the halfword past it and its last unwritten, or half written. -/
theorem witness_LoadsOutsideTheMapFault :
    (let s := start [(16, 0x10010100)];
      (Claims.address s 16 0).toNat = 0x10010100 ∧ (Claims.address s 16 0xFFFE).toNat = 0x100100FE ∧ (Claims.address s 16 0xFFFF).toNat = 0x100100FF ∧
      ¬ (∀ k < 1, s.cfg.inData (0x10010100 + k) = true ∨ s.cfg.inCode (0x10010100 + k) = true) ∧
      ¬ (∀ k < 2, s.cfg.inData (0x10010100 + k) = true ∨ s.cfg.inCode (0x10010100 + k) = true) ∧
      (∀ k < 1, s.cfg.inData (0x100100FF + k) = true ∨ s.cfg.inCode (0x100100FF + k) = true) ∧ s.mem.read 0x100100FF = none ∧
      (∀ k < 2, s.cfg.inData (0x100100FE + k) = true ∨ s.cfg.inCode (0x100100FE + k) = true) ∧ s.mem.read 0x100100FE = none) ∧
    (let s := { start [(16, 0x10010100)] with mem := [(0x100100FE, 0x80)] };
      s.mem.read 0x100100FE = some 0x80 ∧ s.mem.read (0x100100FE + 1) = none) := by decide

theorem witness_SbStoresTheLowByte :
    (0xA2080000 : Word) &&& 0xFC000000 = 0xA0000000 ∧
    (let s := start [(16, 0x10010100)];
      (Claims.address s 16 0xFFFF).toNat = 0x100100FF ∧ ∀ k < 1, s.cfg.inData (0x100100FF + k) = true ∧ s.cfg.inCode (0x100100FF + k) = false) := by decide

theorem witness_ShStoresTheLowHalfword :
    let s := start [(16, 0x10010100)]
    (Claims.address s 16 0xFFFE).toNat = 0x100100FE ∧ 0x100100FE % 2 = 0 ∧
    ∀ k < 2, s.cfg.inData (0x100100FE + k) = true ∧ s.cfg.inCode (0x100100FE + k) = false := by decide

/-- The first byte of code; the byte past the data; and the halfwords there. -/
theorem witness_StoresOutsideDataStop :
    let s := start [(16, 0x00400000), (17, 0x10010100)]
    (Claims.address s 16 0).toNat = 0x00400000 ∧ s.cfg.inCode 0x00400000 = true ∧
    (Claims.address s 17 0).toNat = 0x10010100 ∧ s.cfg.inCode 0x10010100 = false ∧ s.cfg.inData 0x10010100 = false ∧
    0x00400000 % 2 = 0 ∧ 0x10010100 % 2 = 0 ∧ (∀ k < 2, s.cfg.inCode (0x10010100 + k) = false) := by decide

/-- Regions with odd bounds, so that a halfword can lie in two of them: at 0x00400000 its upper byte alone in code, its lower one nowhere; at 0x10010000 the lower byte in data, the upper one in code. -/
def oddRegions : State :=
  withRegs (State.resetWith { env false true with codeRegion := [⟨0x00400001, 1⟩, ⟨0x10010001, 1⟩], dataRegion := [⟨0x10010000, 1⟩, ⟨0x10010002, 1⟩] })
    [(16, 0x00400000), (17, 0x10010000)]

theorem witness_StoresOutsideDataStop_mixed :
    (Claims.address oddRegions 16 0).toNat = 0x00400000 ∧ oddRegions.cfg.inCode 0x00400000 = false ∧ oddRegions.cfg.inData 0x00400000 = false ∧
    oddRegions.cfg.inCode 0x00400001 = true ∧ (Claims.address oddRegions 17 0).toNat = 0x10010000 ∧ oddRegions.cfg.inData 0x10010000 = true ∧
    oddRegions.cfg.inCode 0x10010001 = true ∧ (Claims.address oddRegions 17 2).toNat = 0x10010002 ∧
    (∀ k < 2, oddRegions.cfg.inCode (0x10010002 + k) = false) ∧ oddRegions.cfg.inData 0x10010002 = true ∧
    oddRegions.cfg.inData 0x10010003 = false := by decide

theorem witness_StoredHalfwordReadsBack :
    (Claims.address (data true) 16 0).toNat % 2 = 0 ∧
    ∃ t, exec (.sh 10 16 0) (data true) = .next t ∧ Claims.address t 16 0 = Claims.address (data true) 16 0 ∧ (10 : RegNo) ≠ 0 :=
  ⟨by decide, _, rfl, by decide, by decide⟩

/-- Operands of both signs, and 0; both variants. -/
theorem witness_BgezBranchesOnTheSign :
    (start []).inDelay = false ∧ 0 ≤ ((start []).readReg 8).toInt ∧ (start []).cfg.delaySlots = true ∧
    (State.resetWith (env false false)).inDelay = false ∧ (State.resetWith (env false false)).cfg.delaySlots = false ∧
    0 ≤ ((State.resetWith (env false false)).readReg 8).toInt ∧ ((start [(8, 0x80000000)]).readReg 8).toInt < 0 := by decide

theorem witness_JalrJumpsAndLinks :
    (start []).inDelay = false ∧ (start []).cfg.delaySlots = true ∧ (State.resetWith (env false false)).inDelay = false ∧
    (State.resetWith (env false false)).cfg.delaySlots = false := by decide

/-- BGEZ at the reset address with CLZ after it; and JALR so. -/
theorem witness_TheDelaySlotRunsOnceBeforeTheTarget :
    let s := { start [(25, 0x00400100)] with mem := Memory.writeBytes [] 0x00400004 (splitWord false 0x71005020) }
    s.cfg.delaySlots = true ∧ s.inDelay = false ∧ s.npc = s.pc + 4 ∧
    (∃ t u, exec (.bgez 8 4) s = .next t ∧ step t = .next u) ∧ ∃ t u, exec (.jalr 31 25) s = .next t ∧ step t = .next u :=
  ⟨rfl, rfl, rfl, ⟨_, _, rfl, rfl⟩, _, _, rfl, rfl⟩

theorem witness_ControlTransfersInADelaySlotAreRefused : refuses .eret { start [] with inDelay := true } .controlTransferInDelaySlot = true := by decide

theorem witness_BreakSyscallAndTeqTrap :
    (start []).inDelay = false ∧ (start []).status.getLsbD 1 = false ∧ (start []).status.getLsbD 2 = false ∧
    (start [(8, 7), (9, 7)]).readReg 8 = (start [(8, 7), (9, 7)]).readReg 9 := by decide

theorem witness_TeqOnDifferentOperandsOnlyAdvances : (start [(8, 7), (9, 8)]).readReg 8 ≠ (start [(8, 7), (9, 8)]).readReg 9 := by decide

theorem witness_OddHalfwordAddressesTrap :
    (Claims.address (data false) 16 3).toNat % 2 = 1 ∧ (data false).inDelay = false ∧ (data false).status.getLsbD 1 = false ∧
    (data false).status.getLsbD 2 = false := by decide

theorem witness_EretReturnsToTheSavedAddress :
    (start []).inDelay = false ∧ (0x00000006 : Word).getLsbD 2 = true ∧ (0x00000002 : Word).getLsbD 2 = false := by decide

theorem witness_ExceptionThenEretResumesAfterTheInstruction :
    Claims.raised (start []) .syscall = some .systemCall ∧ ∃ t, exec .syscall (start []) = .next t := ⟨by decide, _, rfl⟩

/-- Each of the registers just written, by MTC0 of all ones and of a Status with both bits 0; SYSCALL after it raises. -/
theorem witness_Mtc0IsSeenByTheNextInstruction :
    (∃ t, exec (.mtc0 8 14) (start [(8, 0x00400060)]) = .next t ∧ Claims.raised t .syscall = some .systemCall) ∧
    (∃ t, exec (.mtc0 8 30) { start [(8, 0x00400060)] with status := 4 } = .next t) ∧
    (∃ t, exec (.mtc0 8 13) (start [(8, 0x00400060)]) = .next t) ∧
    (∃ t, exec (.mtc0 8 12) (start [(8, 0xFFFFFFFF)]) = .next t ∧ Claims.raised t .syscall = some .systemCall) ∧
    (0xFFFFFFFF : Word).getLsbD 1 = true ∧ (0xFFFFFFFF : Word).getLsbD 2 = true ∧
    (0xFFFFFFF9 : Word).getLsbD 1 = false ∧ (0xFFFFFFF9 : Word).getLsbD 2 = false :=
  ⟨⟨_, rfl, rfl⟩, ⟨_, rfl⟩, ⟨_, rfl⟩, ⟨_, rfl, rfl⟩, by decide, by decide, by decide, by decide⟩

/-- A trap entry with an instruction that raises after it; and ERET with both bits 1, and with each alone, and one that raises after it. -/
theorem witness_TrapEntryAndEretAreSeenByTheNextInstruction :
    (Claims.raised (start []) .brk = some .breakpoint ∧ ∃ t, exec .brk (start []) = .next t ∧ Claims.raised t .syscall = some .systemCall) ∧
    (∃ t, exec .eret { start [] with status := 6 } = .next t ∧ Claims.raised t .syscall = some .systemCall) ∧
    (∃ t, exec .eret { start [] with status := 4 } = .next t ∧ Claims.raised t .syscall = some .systemCall) ∧
    (∃ t, exec .eret { start [] with status := 2 } = .next t ∧ Claims.raised t .syscall = some .systemCall) ∧
    (0x00000006 : Word).getLsbD 1 = true ∧ (0x00000006 : Word).getLsbD 2 = true ∧
    ¬ ((0x00000004 : Word).getLsbD 1 = true ∧ (0x00000004 : Word).getLsbD 2 = true) :=
  ⟨⟨rfl, _, rfl, rfl⟩, ⟨_, rfl, rfl⟩, ⟨_, rfl, rfl⟩, ⟨_, rfl, rfl⟩, by decide, by decide, by decide⟩

theorem witness_UnknownCp0RegistersAreRefused : refuses (.mtc0 8 31) (start []) (.unknownCp0Register 31) = true := by decide

theorem witness_ClzCountsTheLeadingZeros : (0x71005020 : Word) &&& 0xFC0007FF = 0x70000020 := by decide

end Sys2Proof.Tests
end

section
/-! The decoder against the statements' own copy of the pattern table (30_encoding.md R58, R61, R62). -/

namespace Sys2Proof.Encoding

/-- The statements' table is the decoder's: the masks and patterns of its rows, in the same order. -/
theorem patterns_eq_map_rows : Claims.patterns = rows.map fun r => (r.mask, r.pattern) := rfl

/-- A word with a row's pattern under the row's mask is read as the row's instruction, with the row's fields (R58, R61). -/
theorem reads_build_of_mem_rows : ∀ r ∈ rows, ∀ w, w &&& r.mask = r.pattern → Claims.reads w (r.build w) :=
  fun _ hr _ hw => decode_of_fits hr (fits_iff.2 hw)

/-- Only a word that matches a pattern of the table is read as an instruction (R62). -/
theorem exists_pattern_of_reads {w : Word} {i : Instr} (h : Claims.reads w i) : ∃ p ∈ Claims.patterns, w &&& p.1 = p.2 := by
  obtain ⟨r, hr, hw, -⟩ := fits_of_decode h
  exact ⟨(r.mask, r.pattern), patterns_eq_map_rows ▸ List.mem_map_of_mem hr, fits_iff.1 hw⟩

/-- Settles O1: the clauses are the rows of the decoder's table one by one, and a word that is read matches one of them. -/
theorem decodeFollowsThePatternTable : Obligations.DecodeFollowsThePatternTable := by
  have hrows := reads_build_of_mem_rows
  simp only [rows, List.forall_mem_cons] at hrows
  obtain ⟨div, divu, mult, multu, bgez, jalr, lbu, lhu, lb, lh, sb, sh, brk, syscall, eret, mfhi, mflo, mthi, mtlo, mfc0, mtc0,
    clz, teq, -⟩ := hrows
  refine ⟨div, divu, mult, multu, bgez, jalr, lbu, lhu, lb, lh, sb, sh, brk, syscall, eret, mfhi, mflo, mthi, mtlo, mfc0, mtc0,
    clz, teq, ?_⟩
  intro w hnone i hreads
  obtain ⟨p, hp, hw⟩ := exists_pattern_of_reads hreads
  exact hnone p hp hw

end Sys2Proof.Encoding
end

section
/-! The multiplies (40_muldiv.md R70, R71): a product of two words fits in 64 bits, `HI` and `LO` are its halves, and `LO` is the same for
both signednesses. -/

namespace Sys2Proof.Machine

/-- `HI` and `LO`, side by side, are the whole product (R12). -/
theorem writeProduct_hi_append_lo (s : State) (p : BitVec 64) : (s.writeProduct p).hi ++ (s.writeProduct p).lo = p := by
  rw [State.writeProduct_hi, State.writeProduct_lo,
    BitVec.extractLsb'_append_extractLsb'_eq_extractLsb' (show 32 = 0 + 32 from rfl)]
  exact BitVec.extractLsb'_eq_self

/-- The value of two words side by side. -/
theorem append_toNat (h l : Word) : (h ++ l).toNat = h.toNat * 2 ^ 32 + l.toNat := by
  rw [BitVec.toNat_append, ← Nat.shiftLeft_add_eq_or_of_lt l.isLt, Nat.shiftLeft_eq]

/-- A product of signed words does not overflow 64 bits: its absolute value is at most 2^62. -/
theorem toInt_ofInt_product (a b : Word) : (BitVec.ofInt 64 (a.toInt * b.toInt)).toInt = a.toInt * b.toInt := by
  have hlow : -2 ^ 62 ≤ a.toInt * b.toInt := BitVec.le_toInt_mul_toInt
  have hhigh : a.toInt * b.toInt ≤ 2 ^ 62 := BitVec.toInt_mul_toInt_le
  exact BitVec.toInt_ofInt_eq_self (by decide) (by omega) (by omega)

/-- A product of unsigned words does not overflow 64 bits. -/
theorem toNat_ofNat_product (a b : Word) : (BitVec.ofNat 64 (a.toNat * b.toNat)).toNat = a.toNat * b.toNat := by
  have hfits : a.toNat * b.toNat < 2 ^ 32 * 2 ^ 32 := Nat.mul_lt_mul'' a.isLt b.isLt
  exact (BitVec.toNat_ofNat _ _).trans (Nat.mod_eq_of_lt hfits)

/-- The low half of a 64-bit integer is that integer modulo 2^32. -/
theorem low_half_ofInt (z : Int) : (BitVec.ofInt 64 z).setWidth 32 = BitVec.ofInt 32 z := by
  apply BitVec.eq_of_toNat_eq
  rw [BitVec.toNat_setWidth, BitVec.toNat_ofInt, BitVec.toNat_ofInt]
  omega

/-- The low half of the signed product is the 32-bit product of the operands. -/
theorem low_half_signed_product (a b : Word) : (BitVec.ofInt 64 (a.toInt * b.toInt)).extractLsb' 0 32 = a * b := by
  rw [← BitVec.setWidth_eq_extractLsb' (by decide), low_half_ofInt, BitVec.ofInt_mul, BitVec.ofInt_toInt, BitVec.ofInt_toInt]

/-- The low half of the unsigned product is the 32-bit product of the operands. -/
theorem low_half_unsigned_product (a b : Word) : (BitVec.ofNat 64 (a.toNat * b.toNat)).extractLsb' 0 32 = a * b := by
  rw [← BitVec.setWidth_eq_extractLsb' (by decide), BitVec.setWidth_ofNat_of_le (by decide), BitVec.ofNat_mul,
    BitVec.ofNat_toNat, BitVec.ofNat_toNat, BitVec.setWidth_eq, BitVec.setWidth_eq]

/-- MULT completes in every state (R70). -/
theorem exec_mult (rs rt : RegNo) (s : State) :
    exec (.mult rs rt) s = .next (s.writeProduct (BitVec.ofInt 64 ((s.readReg rs).toInt * (s.readReg rt).toInt))).advance :=
  exec_next.2 rfl

/-- MULTU completes in every state (R71). -/
theorem exec_multu (rs rt : RegNo) (s : State) :
    exec (.multu rs rt) s = .next (s.writeProduct (BitVec.ofNat 64 ((s.readReg rs).toNat * (s.readReg rt).toNat))).advance :=
  exec_next.2 rfl

/-- Settles O25: the signed product fits in 64 bits, of which `HI` and `LO` are the halves. -/
theorem multLeavesTheSignedProduct : Obligations.MultLeavesTheSignedProduct := by
  obtain ⟨-, -, hreads, -⟩ := Encoding.decodeFollowsThePatternTable
  refine ⟨hreads, fun rs rt s => ⟨_, exec_mult rs rt s, ?_, rfl⟩⟩
  rw [State.advance_hi, State.advance_lo, writeProduct_hi_append_lo, toInt_ofInt_product]

/-- Settles O26: the unsigned product fits in 64 bits, of which `HI` and `LO` are the halves; its low half, like MULT's, is the
32-bit product of the operands. -/
theorem multuLeavesTheUnsignedProduct : Obligations.MultuLeavesTheUnsignedProduct := by
  obtain ⟨-, -, -, hreads, -⟩ := Encoding.decodeFollowsThePatternTable
  refine ⟨hreads, fun rs rt s => ⟨_, exec_multu rs rt s, ?_, ?_, rfl⟩⟩
  · rw [State.advance_hi, State.advance_lo, ← append_toNat, writeProduct_hi_append_lo, toNat_ofNat_product]
  · intro u hu
    obtain rfl : u = _ := exec_next.1 hu
    simp only [State.advance_lo, State.writeProduct_lo, low_half_signed_product, low_half_unsigned_product]

end Sys2Proof.Machine
end

section
/-! The moves between `HI`, `LO` and the general registers (41_hilo.md R80 to R83), and the one fact about an instruction that writes a general
register and advances. -/

namespace Sys2Proof.Machine

/-- A register write that advances changes that register only: `x[0]` stays 0, the other registers and the rest of the state stay as they are
(R11, R16). -/
theorem onlyRegister_writeReg_advance (s : State) (r : RegNo) (v : Word) : Claims.onlyRegister s (s.writeReg r v).advance r v := by
  refine ⟨?written, ?others, ?rest⟩
  case written =>
    rw [State.advance_readReg, State.readReg_writeReg]
    by_cases hr : r = 0
    · subst hr
      rfl
    · rw [if_pos ⟨rfl, hr⟩, if_neg hr]
  case others =>
    intro q hq
    rw [State.advance_readReg, State.readReg_writeReg, if_neg fun h => hq h.1]
  case rest =>
    unfold State.writeReg
    split <;> rfl

/-- MFHI completes in every state (R83). -/
theorem exec_mfhi (rd : RegNo) (s : State) : exec (.mfhi rd) s = .next (s.writeReg rd s.hi).advance := exec_next.2 rfl

/-- MFLO completes in every state (R80). -/
theorem exec_mflo (rd : RegNo) (s : State) : exec (.mflo rd) s = .next (s.writeReg rd s.lo).advance := exec_next.2 rfl

/-- MTHI completes in every state (R81). -/
theorem exec_mthi (rs : RegNo) (s : State) : exec (.mthi rs) s = .next (s.writeHiLo (s.readReg rs) s.lo).advance := exec_next.2 rfl

/-- MTLO completes in every state (R82). -/
theorem exec_mtlo (rs : RegNo) (s : State) : exec (.mtlo rs) s = .next (s.writeHiLo s.hi (s.readReg rs)).advance := exec_next.2 rfl

/-- Settles O30: both complete in every state as a register write that advances. -/
theorem mfhiAndMfloCopyToTheRegister : Obligations.MfhiAndMfloCopyToTheRegister := by
  obtain ⟨-, -, -, -, -, -, -, -, -, -, -, -, -, -, -, mfhi, mflo, -⟩ := Encoding.decodeFollowsThePatternTable
  refine ⟨mfhi, mflo, fun rd s => ⟨?_, ?_⟩⟩
  · exact ⟨_, exec_mfhi rd s, onlyRegister_writeReg_advance s rd s.hi⟩
  · exact ⟨_, exec_mflo rd s, onlyRegister_writeReg_advance s rd s.lo⟩

/-- Settles O31: both complete in every state as a write of `HI` and `LO` that puts the other one back. -/
theorem mthiAndMtloCopyFromTheRegister : Obligations.MthiAndMtloCopyFromTheRegister := by
  obtain ⟨-, -, -, -, -, -, -, -, -, -, -, -, -, -, -, -, -, mthi, mtlo, -⟩ := Encoding.decodeFollowsThePatternTable
  exact ⟨mthi, mtlo, fun rs s => ⟨exec_mthi rs s, exec_mtlo rs s⟩⟩

end Sys2Proof.Machine
end

section
/-! The byte accesses (42_loadstore.md R90, R91, R94) at an admitted address: how the load and the store answer there, and LB, LBU and SB by it. -/

namespace Sys2Proof.Machine

/-- The statements' effective address is the machine's (R31). -/
theorem effAddr_eq_address (s : State) (base : RegNo) (imm16 : Half) : s.effAddr base imm16 = Claims.address s base imm16 := rfl

/-- A load of an admitted byte that holds a value answers that byte (R33, R39). -/
theorem loadByte_of_mayLoad {s : State} {a : Word} {b : Byte} (hmay : Claims.mayLoad s a.toNat 1)
    (hb : s.mem.read a.toNat = some b) : s.loadByte a = .next b :=
  loadByte_next.2 ⟨admitsLoad_iff.2 hmay, hb⟩

/-- A store to admitted bytes writes them, and answers the state with that memory (R34, R39, R44). -/
theorem store_of_mayStore {s : State} {a : Word} {bs : List Byte} (hmay : Claims.mayStore s a.toNat bs.length) :
    s.store a bs = .next { s with mem := s.mem.writeBytes a.toNat bs } := by
  have hcode : s.touchesCode a.toNat bs.length = false := touchesCode_false.2 fun k hk => (hmay k hk).2
  have hdata : s.inDataRegion a.toNat bs.length = true := inDataRegion_iff.2 fun k hk => (hmay k hk).1
  exact store_next.2 ⟨hcode, hdata, rfl⟩

/-- LB of a byte that the load answers is a register write of its sign extension that advances (R90). -/
theorem exec_lb_of_loadByte {s : State} {base : RegNo} {imm16 : Half} {b : Byte}
    (hb : s.loadByte (s.effAddr base imm16) = .next b) (rt : RegNo) :
    exec (.lb rt base imm16) s = .next (s.writeReg rt (b.signExtend 32)).advance :=
  exec_next.2 ⟨b, hb, rfl⟩

/-- LBU of a byte that the load answers is a register write of its zero extension that advances (R91). -/
theorem exec_lbu_of_loadByte {s : State} {base : RegNo} {imm16 : Half} {b : Byte}
    (hb : s.loadByte (s.effAddr base imm16) = .next b) (rt : RegNo) :
    exec (.lbu rt base imm16) s = .next (s.writeReg rt (b.setWidth 32)).advance :=
  exec_next.2 ⟨b, hb, rfl⟩

/-- SB to an admitted byte is a write of that one byte of memory that advances (R94). -/
theorem exec_sb_of_mayStore {s : State} {base : RegNo} {imm16 : Half}
    (hmay : Claims.mayStore s (Claims.address s base imm16).toNat 1) (rt : RegNo) :
    exec (.sb rt base imm16) s = .next (State.advance
      { s with mem := s.mem.write (Claims.address s base imm16).toNat ((s.readReg rt).extractLsb' 0 8) }) :=
  exec_next.2 ⟨_, store_of_mayStore hmay, rfl⟩

/-- Settles O32: the load answers the byte, and an extension keeps its signed (LB) or unsigned (LBU) value. -/
theorem byteLoadsExtendTheByte : Obligations.ByteLoadsExtendTheByte := by
  obtain ⟨-, -, -, -, -, -, lbu, -, lb, -⟩ := Encoding.decodeFollowsThePatternTable
  refine ⟨lb, lbu, fun rt base imm16 s b hmay hread => ?_⟩
  rw [← effAddr_eq_address] at hmay hread
  have hload : s.loadByte (s.effAddr base imm16) = .next b := loadByte_of_mayLoad hmay hread
  refine ⟨⟨_, b.signExtend 32, exec_lb_of_loadByte hload rt, onlyRegister_writeReg_advance s rt _, ?_⟩,
    ⟨_, b.setWidth 32, exec_lbu_of_loadByte hload rt, onlyRegister_writeReg_advance s rt _, ?_⟩⟩
  · exact BitVec.toInt_signExtend_of_le (by decide)
  · exact BitVec.toNat_setWidth_of_le (by decide)

/-- Settles O35: SB is one write of memory, which reads back at its own address and leaves every other one. -/
theorem sbStoresTheLowByte : Obligations.SbStoresTheLowByte := by
  obtain ⟨-, -, -, -, -, -, -, -, -, -, sb, -⟩ := Encoding.decodeFollowsThePatternTable
  refine ⟨sb, fun rt base imm16 s hmay => ⟨_, exec_sb_of_mayStore hmay rt, ?_, fun a ha => ?_, rfl⟩⟩
  · rw [State.advance_mem, Memory.read_write, if_pos rfl]
  · rw [State.advance_mem, Memory.read_write, if_neg ha]

end Sys2Proof.Machine
end

section
/-! CLZ (46_clz.md R130): the count of all 32 bits, and the register write that holds it. -/

namespace Sys2Proof.Machine

/-- CLZ completes in every state (R130). -/
theorem exec_clz (rd rs : RegNo) (s : State) :
    exec (.clz rd rs) s = .next (s.writeReg rd (BitVec.ofNat 32 (leadingZeros (s.readReg rs) 32))).advance :=
  exec_next.2 rfl

/-- The loop over the whole word needs no assumption on its bits: none stand above bit 31. -/
theorem leadingZeros_word_spec (v : Word) :
    leadingZeros v 32 ≤ 32 ∧ (∀ k < leadingZeros v 32, v.getLsbD (31 - k) = false) ∧
      (leadingZeros v 32 < 32 → v.getLsbD (31 - leadingZeros v 32) = true) :=
  leadingZeros_spec v 32 le_rfl fun _ hge hlt => absurd hlt (Nat.not_lt.2 hge)

/-- The count, at most 32, fits in the word that CLZ writes. -/
theorem toNat_ofNat_leadingZeros (v : Word) : (BitVec.ofNat 32 (leadingZeros v 32)).toNat = leadingZeros v 32 := by
  obtain ⟨hle, -, -⟩ := leadingZeros_word_spec v
  have hfits : leadingZeros v 32 < 2 ^ 32 := hle.trans_lt (by decide)
  exact (BitVec.toNat_ofNat _ _).trans (Nat.mod_eq_of_lt hfits)

/-- Settles O52: CLZ is a register write that advances, and the word written is the loop's count of the leading zeros. -/
theorem clzCountsTheLeadingZeros : Obligations.ClzCountsTheLeadingZeros := by
  obtain ⟨-, -, -, -, -, -, -, -, -, -, -, -, -, -, -, -, -, -, -, -, -, clz, -⟩ := Encoding.decodeFollowsThePatternTable
  refine ⟨clz, fun rd rs s => ⟨_, _, exec_clz rd rs s, onlyRegister_writeReg_advance s rd _, ?_⟩⟩
  rw [toNat_ofNat_leadingZeros]
  exact leadingZeros_word_spec (s.readReg rs)

end Sys2Proof.Machine
end

section
/-! The round trips between instructions and words (30_encoding.md R58, R60, R65). -/

namespace Sys2Proof.Encoding

/-- Every instruction's word fits a row of the table that gives the instruction back. -/
theorem ownRow (i : Instr) : Laws.OwnRow.Statement i := by
  cases i with
  | div rs rt => exact Laws.OwnRow.div rs rt
  | divu rs rt => exact Laws.OwnRow.divu rs rt
  | mult rs rt => exact Laws.OwnRow.mult rs rt
  | multu rs rt => exact Laws.OwnRow.multu rs rt
  | bgez rs imm16 => exact Laws.OwnRow.bgez rs imm16
  | jalr rd rs => exact Laws.OwnRow.jalr rd rs
  | lbu rt base imm16 => exact Laws.OwnRow.lbu rt base imm16
  | lhu rt base imm16 => exact Laws.OwnRow.lhu rt base imm16
  | lb rt base imm16 => exact Laws.OwnRow.lb rt base imm16
  | lh rt base imm16 => exact Laws.OwnRow.lh rt base imm16
  | sb rt base imm16 => exact Laws.OwnRow.sb rt base imm16
  | sh rt base imm16 => exact Laws.OwnRow.sh rt base imm16
  | brk => exact Laws.OwnRow.brk
  | syscall => exact Laws.OwnRow.syscall
  | eret => exact Laws.OwnRow.eret
  | mfhi rd => exact Laws.OwnRow.mfhi rd
  | mflo rd => exact Laws.OwnRow.mflo rd
  | mthi rs => exact Laws.OwnRow.mthi rs
  | mtlo rs => exact Laws.OwnRow.mtlo rs
  | mfc0 rt rd => exact Laws.OwnRow.mfc0 rt rd
  | mtc0 rt rd => exact Laws.OwnRow.mtc0 rt rd
  | clz rd rs => exact Laws.OwnRow.clz rd rs
  | teq rs rt => exact Laws.OwnRow.teq rs rt

/-- Settles O2: the word fits the instruction's own row, so the decoder finds that row. -/
theorem encodedInstructionDecodesToItself : Obligations.EncodedInstructionDecodesToItself := by
  intro i
  obtain ⟨n, hn, hfits, hbuild⟩ := ownRow i
  rw [decode_of_fits (List.getElem_mem hn) hfits, hbuild]

/-- A full mask keeps a six-bit field. -/
theorem and_full6 (x : BitVec 6) : x &&& 63#6 = x := BitVec.and_allOnes

/-- A full mask keeps a five-bit field. -/
theorem and_full5 (x : BitVec 5) : x &&& 31#5 = x := BitVec.and_allOnes

/-- A field inside the immediate is that field of the word. -/
theorem extract_immField (w : Word) {n l : Nat} (h : n + l ≤ 16) : (immField w).extractLsb' n l = w.extractLsb' n l := by
  rw [immField, BitVec.extractLsb'_extractLsb'_of_le h]

/-- The six fields (R51) of the equation of a row: masking works field by field. -/
theorem fields_of_and {w m p : Word} (h : w &&& m = p) :
    w.extractLsb' 26 6 &&& m.extractLsb' 26 6 = p.extractLsb' 26 6 ∧ rsField w &&& rsField m = rsField p ∧
    rtField w &&& rtField m = rtField p ∧ rdField w &&& rdField m = rdField p ∧
    w.extractLsb' 6 5 &&& m.extractLsb' 6 5 = p.extractLsb' 6 5 ∧ w.extractLsb' 0 6 &&& m.extractLsb' 0 6 = p.extractLsb' 0 6 := by
  subst h
  unfold rsField rtField rdField
  simp only [extract_and, and_self]

/-- The instruction that a row builds from a word that fits it has that word, but for the bits the row ignores (R60, R65): the row's
equation and the encoder's packing are compared field by field. -/
theorem encode_build_of_fits {r : Row} (hr : r ∈ rows) {w : Word} (hw : r.fits w = true) :
    encode (r.build w) = w &&& Claims.keptBits (r.build w) := by
  have hfields := fields_of_and (fits_iff.1 hw)
  rw [← packR_fields (w &&& Claims.keptBits (r.build w))]
  unfold rsField rtField rdField at *
  simp only [rows, List.mem_cons, List.not_mem_nil, or_false] at hr
  rcases hr with rfl | rfl | rfl | rfl | rfl | rfl | rfl | rfl | rfl | rfl | rfl | rfl | rfl | rfl | rfl | rfl | rfl | rfl | rfl |
      rfl | rfl | rfl | rfl <;>
    simp_all [encode, Claims.keptBits, packI_eq_packR, rsField, rtField, rdField, extract_and, and_full6, and_full5, extract_immField]

/-- Settles O3: a decoded word fits a row that builds the instruction. -/
theorem decodedWordEncodesToItsKeptBits : Obligations.DecodedWordEncodesToItsKeptBits := by
  intro w i h
  obtain ⟨r, hr, hfits, rfl⟩ := fits_of_decode h
  exact encode_build_of_fits hr hfits

/-- Settles O4: the decoder evaluates each of the words. -/
theorem writtenOutWordsDecode : Obligations.WrittenOutWordsDecode := by
  refine ⟨rfl, rfl, rfl, rfl, rfl, rfl, rfl, rfl, rfl, rfl, rfl, rfl, rfl, rfl, rfl, ?_⟩
  simp only [List.forall_mem_cons]
  exact ⟨rfl, rfl, rfl, rfl, rfl, rfl, rfl, rfl, rfl, rfl, rfl, by simp⟩

end Sys2Proof.Encoding
end

section
/-! What an instruction answers, for all instructions at once: one that raises answers what `raise` answers (60_exceptions.md R140, R150, R151), the
ways an instruction can complete, and the reasons it can be refused for. -/

namespace Sys2Proof.Machine

/-! ### Instructions that raise -/

/-- The statements' test for an odd address is the machine's (R37). -/
theorem oddAddr_iff_address (s : State) (base : RegNo) (imm16 : Half) :
    oddAddr (s.effAddr base imm16) = true ↔ (Claims.address s base imm16).toNat % 2 = 1 := oddAddr_iff _

/-- An instruction that raises answers what raising that exception answers (R140). -/
theorem exec_of_raised {i : Instr} {s : State} {e : Exc} (h : Claims.raised s i = some e) : exec i s = s.raise e := by
  cases i with
  | brk => cases h; rfl
  | syscall => cases h; rfl
  | teq rs rt =>
    obtain ⟨heq, he⟩ := Option.ite_none_right_eq_some.1 h
    cases he
    exact if_pos heq
  | lh rt base imm16 | lhu rt base imm16 | sh rt base imm16 =>
    obtain ⟨hodd, he⟩ := Option.ite_none_right_eq_some.1 h
    cases he
    exact if_pos ((oddAddr_iff_address s base imm16).2 hodd)
  | _ => cases h

/-- The address of a halfword access that raises nothing is even (R37). -/
theorem oddAddr_of_not_raised {s : State} {base : RegNo} {imm16 : Half} {e : Exc}
    (h : (if (Claims.address s base imm16).toNat % 2 = 1 then some e else none) = none) :
    oddAddr (s.effAddr base imm16) = false := by
  by_contra hodd
  rw [Bool.not_eq_false, oddAddr_iff_address] at hodd
  rw [if_pos hodd] at h
  cases h

/-- The operands of a TEQ that raises nothing are different (R112). -/
theorem ne_of_teq_not_raised {s : State} {rs rt : RegNo} (h : Claims.raised s (.teq rs rt) = none) : s.readReg rs ≠ s.readReg rt :=
  fun heq => by simp [Claims.raised, heq] at h

/-! ### Instructions whose meaning tests an operand -/

/-- TEQ of different operands advances (R112). -/
theorem exec_teq_of_ne {s : State} {rs rt : RegNo} (h : s.readReg rs ≠ s.readReg rt) : exec (.teq rs rt) s = .next s.advance :=
  if_neg h

/-- DIV by 0 draws `HI` and `LO` (R73). -/
theorem exec_div_zero {rs rt : RegNo} {s : State} (h : s.readReg rt = 0) :
    exec (.div rs rt) s = .next (s.writeDraw (s.readReg rs) true).advance :=
  if_pos h

/-- DIVU by 0 draws `HI` and `LO` (R73). -/
theorem exec_divu_zero {rs rt : RegNo} {s : State} (h : s.readReg rt = 0) :
    exec (.divu rs rt) s = .next (s.writeDraw (s.readReg rs) false).advance :=
  if_pos h

/-- DIV by another divisor writes the remainder and the quotient of the signed values (R74). -/
theorem exec_div_nonzero {rs rt : RegNo} {s : State} (h : s.readReg rt ≠ 0) :
    exec (.div rs rt) s = .next (s.writeHiLo
      (BitVec.ofInt 32 ((s.readReg rs).toInt - signedQuot (s.readReg rs).toInt (s.readReg rt).toInt * (s.readReg rt).toInt))
      (BitVec.ofInt 32 (signedQuot (s.readReg rs).toInt (s.readReg rt).toInt))).advance :=
  if_neg h

/-- DIVU by another divisor writes the remainder and the quotient of the unsigned values (R75). -/
theorem exec_divu_nonzero {rs rt : RegNo} {s : State} (h : s.readReg rt ≠ 0) :
    exec (.divu rs rt) s = .next (s.writeHiLo
      (BitVec.ofNat 32 ((s.readReg rs).toNat - (s.readReg rs).toNat / (s.readReg rt).toNat * (s.readReg rt).toNat))
      (BitVec.ofNat 32 ((s.readReg rs).toNat / (s.readReg rt).toNat))).advance :=
  if_neg h

/-! ### The ways an instruction can complete -/

/-- The multiplies and the divides. -/
def MulOrDiv (i : Instr) : Prop := ∃ rs rt, i = .mult rs rt ∨ i = .multu rs rt ∨ i = .div rs rt ∨ i = .divu rs rt

/-- The ways the instruction `i` can complete in `s`, with the state it leaves. -/
inductive Completes (s : State) : Instr → State → Prop where
  /-- Trap entry, by an instruction that raises (R145). -/
  | trap {i : Instr} {e : Exc} (hraised : Claims.raised s i = some e) (hslot : s.inDelay = false) (hexl : s.exl = false)
      (herl : s.erl = false) : Completes s i (s.trapEntry e)
  /-- A write of the destination register: MFHI, MFLO, MFC0, CLZ and the loads. -/
  | register {i : Instr} {r : RegNo} (v : Word) (hdest : Claims.destination i = some r) (hjalr : ∀ rd rs, i ≠ .jalr rd rs)
      (hraised : Claims.raised s i = none) : Completes s i (s.writeReg r v).advance
  /-- A multiply or a divide, `d` draws after it (log 6). -/
  | mulDiv {i : Instr} (h l : Word) (d : Nat) (hi : MulOrDiv i) : Completes s i (State.advance { s with hi := h, lo := l, draws := d })
  | mthi (rs : RegNo) : Completes s (.mthi rs) (s.writeHiLo (s.readReg rs) s.lo).advance
  | mtlo (rs : RegNo) : Completes s (.mtlo rs) (s.writeHiLo s.hi (s.readReg rs)).advance
  /-- SB. -/
  | sb (rt base : RegNo) (imm16 : Half) {u : State} (hstore : s.store (s.effAddr base imm16) [byteOf (s.readReg rt) 0] = .next u) :
      Completes s (.sb rt base imm16) u.advance
  /-- SH at an even address. -/
  | sh (rt base : RegNo) (imm16 : Half) {u : State} (heven : oddAddr (s.effAddr base imm16) = false)
      (hstore : s.store (s.effAddr base imm16)
        (splitHalf s.cfg.bigEndian ((s.readReg rt).extractLsb' 0 16)) = .next u) : Completes s (.sh rt base imm16) u.advance
  /-- MTC0. -/
  | mtc0 (rt rd : RegNo) {c : Cp0} (hc : cp0Of rd = some c) : Completes s (.mtc0 rt rd) (s.writeCp0 c (s.readReg rt)).advance
  /-- TEQ of different operands. -/
  | teq (rs rt : RegNo) (hne : s.readReg rs ≠ s.readReg rt) : Completes s (.teq rs rt) s.advance
  | bgez (rs : RegNo) (imm16 : Half) (hslot : s.inDelay = false) : Completes s (.bgez rs imm16)
      (if (s.readReg rs).msb then s.branchNotTaken else s.branchTo (s.branchTarget imm16))
  | jalr (rd rs : RegNo) (hslot : s.inDelay = false) : Completes s (.jalr rd rs) ((s.writeReg rd s.link).branchTo (s.readReg rs))
  | eret (hslot : s.inDelay = false) : Completes s .eret s.exceptionReturn

/-- Every completion is one of these ways. -/
theorem completes_of_exec {i : Instr} {s t : State} (h : exec i s = .next t) : Completes s i t := by
  rcases hr : Claims.raised s i with _ | e
  case some =>
    rw [exec_of_raised hr, raise_next] at h
    obtain ⟨hslot, hexl, herl, rfl⟩ := h
    exact .trap hr hslot hexl herl
  rw [exec_next] at h
  cases i with
  | div rs rt | divu rs rt =>
    cases h
    split
    · exact .mulDiv _ _ _ ⟨rs, rt, by simp⟩
    · exact .mulDiv _ _ _ ⟨rs, rt, by simp⟩
  | mult rs rt => cases h; exact .mulDiv _ _ _ ⟨rs, rt, by simp⟩
  | multu rs rt => cases h; exact .mulDiv _ _ _ ⟨rs, rt, by simp⟩
  | bgez rs imm16 => obtain ⟨hslot, rfl⟩ := h; exact .bgez rs imm16 hslot
  | jalr rd rs => obtain ⟨hslot, rfl⟩ := h; exact .jalr rd rs hslot
  | eret => obtain ⟨hslot, rfl⟩ := h; exact .eret hslot
  | mfhi rd | mflo rd | clz rd rs => cases h; exact .register _ rfl (by simp) hr
  | mfc0 rt rd => obtain ⟨c, -, rfl⟩ := h; exact .register _ rfl (by simp) hr
  | lb rt base imm16 | lbu rt base imm16 => obtain ⟨b, -, rfl⟩ := h; exact .register _ rfl (by simp) hr
  | lh rt base imm16 | lhu rt base imm16 =>
    obtain ⟨hodd, -⟩ | ⟨-, v, -, rfl⟩ := h
    · rw [oddAddr_of_not_raised hr] at hodd
      cases hodd
    · exact .register _ rfl (by simp) hr
  | sb rt base imm16 => obtain ⟨u, hu, rfl⟩ := h; exact .sb rt base imm16 hu
  | sh rt base imm16 =>
    obtain ⟨hodd, -⟩ | ⟨heven, u, hu, rfl⟩ := h
    · rw [oddAddr_of_not_raised hr] at hodd
      cases hodd
    · exact .sh rt base imm16 heven hu
  | mthi rs => cases h; exact .mthi rs
  | mtlo rs => cases h; exact .mtlo rs
  | mtc0 rt rd => obtain ⟨c, hc, rfl⟩ := h; exact .mtc0 rt rd hc
  | teq rs rt =>
    obtain ⟨heq, -⟩ | ⟨hne, rfl⟩ := h
    · exact absurd heq (ne_of_teq_not_raised hr)
    · exact .teq rs rt hne
  | brk | syscall => cases hr

/-! ### The refusals -/

/-- The reasons an instruction can be refused for: an exception in a slot or while nested, a control transfer in a slot, a CP0
register that does not exist, a store to code. -/
inductive RefusedFor (s : State) : Instr → Refusal → Prop where
  | exception {i : Instr} {e : Exc} {r : Refusal} (hraised : Claims.raised s i = some e) (hraise : s.raise e = .refused r) :
      RefusedFor s i r
  | transfer {i : Instr} (hi : (∃ rs imm16, i = .bgez rs imm16) ∨ (∃ rd rs, i = .jalr rd rs) ∨ i = .eret) (hslot : s.inDelay = true) :
      RefusedFor s i .controlTransferInDelaySlot
  | cp0 {i : Instr} (rd : RegNo) : RefusedFor s i (.unknownCp0Register rd)
  | store {i : Instr} : RefusedFor s i .storeToCode

/-- The only refusal of a control transfer (R15 step 6). -/
theorem transfer_refused {s t : State} {r : Refusal} :
    s.transfer t = .refused r ↔ s.inDelay = true ∧ r = .controlTransferInDelaySlot := by
  unfold State.transfer; cases s.inDelay <;> simp [@eq_comm Refusal]

/-- Every refusal is for one of these reasons. -/
theorem refusedFor_of_exec {i : Instr} {s : State} {r : Refusal} (h : exec i s = .refused r) : RefusedFor s i r := by
  rcases hr : Claims.raised s i with _ | e
  case some => exact .exception hr (exec_of_raised hr ▸ h)
  cases i with
  | bgez rs imm16 =>
    obtain ⟨hslot, rfl⟩ := transfer_refused.1 h
    exact .transfer (.inl ⟨rs, imm16, rfl⟩) hslot
  | jalr rd rs =>
    obtain ⟨hslot, rfl⟩ := transfer_refused.1 h
    exact .transfer (.inr (.inl ⟨rd, rs, rfl⟩)) hslot
  | eret =>
    obtain ⟨hslot, rfl⟩ := transfer_refused.1 h
    exact .transfer (.inr (.inr rfl)) hslot
  | mfc0 rt rd =>
    simp only [exec, execMfc0] at h
    split at h <;> cases h
    exact .cp0 rd
  | mtc0 rt rd =>
    simp only [exec, execMtc0] at h
    split at h <;> cases h
    exact .cp0 rd
  | lb rt base imm16 | lbu rt base imm16 =>
    obtain h | ⟨b, -, h⟩ := andThen_refused.1 h
    · exact absurd h loadByte_not_refused
    · cases h
  | lh rt base imm16 | lhu rt base imm16 =>
    have h := (if_neg (Bool.eq_false_iff.1 (oddAddr_of_not_raised hr))).symm.trans h
    obtain h | ⟨b, -, h⟩ := andThen_refused.1 h
    · exact absurd h loadHalf_not_refused
    · cases h
  | sb rt base imm16 =>
    obtain h | ⟨b, -, h⟩ := andThen_refused.1 h
    · obtain ⟨-, rfl⟩ := store_refused.1 h
      exact .store
    · cases h
  | sh rt base imm16 =>
    have h := (if_neg (Bool.eq_false_iff.1 (oddAddr_of_not_raised hr))).symm.trans h
    obtain h | ⟨b, -, h⟩ := andThen_refused.1 h
    · obtain ⟨-, rfl⟩ := store_refused.1 h
      exact .store
    · cases h
  | div rs rt =>
    rcases eq_or_ne (s.readReg rt) 0 with hz | hz
    · rw [exec_div_zero hz] at h
      cases h
    · rw [exec_div_nonzero hz] at h
      cases h
  | divu rs rt =>
    rcases eq_or_ne (s.readReg rt) 0 with hz | hz
    · rw [exec_divu_zero hz] at h
      cases h
    · rw [exec_divu_nonzero hz] at h
      cases h
  | teq rs rt =>
    rw [exec_teq_of_ne (ne_of_teq_not_raised hr)] at h
    cases h
  | brk | syscall => cases hr
  | mult rs rt | multu rs rt | mfhi rd | mflo rd | mthi rs | mtlo rs | clz rd rs => cases h

end Sys2Proof.Machine
end

section
/-! The invariant and the rules of whole runs (10_state.md R14, R17, R27; 20_memory.md R30, R44), from the ways an instruction can complete. -/

namespace Sys2Proof.Machine

/-! ### Reset -/

/-- Settles O8: each is the field's value in the state after reset. -/
theorem resetLeavesWhatTheSpecFixes : Obligations.ResetLeavesWhatTheSpecFixes :=
  fun _ => ⟨rfl, rfl, rfl, rfl, fun _ => rfl, rfl⟩

/-- The state after reset meets the invariant where its parameters are well-formed (R27). -/
theorem inv_resetWith {c : Config} (hc : c.wf = true) : (State.resetWith c).Inv where
  memory := Memory.nil_wf
  config := hc
  zero := rfl
  sequential _ := rfl
  noSlot _ := rfl

/-- Settles O9: `State.reset` is the reset of well-formed parameters. -/
theorem resetMeetsTheInvariant : Obligations.ResetMeetsTheInvariant :=
  ⟨fun _ => inv_resetWith, inv_resetWith (by decide)⟩

/-! ### Parameters and memory -/

/-- A store changes memory only. -/
theorem store_frame {s u : State} {a : Word} {bs : List Byte} (h : s.store a bs = .next u) :
    u = { s with mem := s.mem.writeBytes a.toNat bs } := (store_next.1 h).2.2

/-- No instruction changes a parameter (R4). -/
theorem cfg_of_completes {i : Instr} {s t : State} (h : Completes s i t) : t.cfg = s.cfg := by
  cases h with
  | sb _ _ _ hstore | sh _ _ _ _ hstore => rw [store_frame hstore]; rfl
  | bgez => split <;> simp
  | jalr | register | mtc0 | eret => simp
  | trap | mulDiv | mthi | mtlo | teq => rfl

/-- An address of `DataRegion` lies in the address space (R5). -/
theorem inData_lt {c : Config} (hc : c.wf = true) {a : Nat} (ha : c.inData a = true) : a < 2 ^ 32 := by
  simp only [Config.wf, Bool.and_eq_true, List.all_eq_true] at hc
  obtain ⟨-, hdata⟩ := hc
  obtain ⟨r, hr, hin⟩ := List.any_eq_true.1 ha
  have hwf := hdata r hr
  simp only [Region.wf, Region.holds, decide_eq_true_eq, Bool.and_eq_true] at hwf hin
  omega

/-- A store keeps the canonical form of memory (R30): all its bytes lie in `DataRegion`. -/
theorem store_wf {s u : State} {a : Word} {bs : List Byte} (hc : s.cfg.wf = true) (hm : s.mem.wf) (h : s.store a bs = .next u) :
    u.mem.wf := by
  obtain ⟨-, hdata, rfl⟩ := store_next.1 h
  rw [inDataRegion_iff] at hdata
  refine Memory.writeBytes_wf hm ?_
  rcases bs.length.eq_zero_or_pos with h0 | hpos
  · rw [h0]
    exact a.isLt.le
  · have hlast := inData_lt hc (hdata (bs.length - 1) (by omega))
    omega

/-- A store leaves every byte outside its own as it was (R34). -/
theorem store_read {s u : State} {a : Word} {bs : List Byte} (h : s.store a bs = .next u) {b : Nat}
    (hb : ¬ (a.toNat ≤ b ∧ b < a.toNat + bs.length)) : u.mem.read b = s.mem.read b := by
  rw [store_frame h]
  exact (Memory.read_writeBytes ..).trans (if_neg hb)

/-- A store leaves every byte of `CodeRegion` as it was (R44). -/
theorem store_read_code {s u : State} {a : Word} {bs : List Byte} (h : s.store a bs = .next u) {b : Nat}
    (hb : s.cfg.inCode b = true) : u.mem.read b = s.mem.read b := by
  obtain ⟨hcode, -, -⟩ := store_next.1 h
  rw [touchesCode_false] at hcode
  refine store_read h fun ⟨hge, hlt⟩ => ?_
  have hfalse := hcode (b - a.toNat) (by omega)
  rw [Nat.add_sub_cancel' hge, hb] at hfalse
  cases hfalse

/-- Memory after an instruction is memory before it, or what a store made of it. -/
theorem mem_of_completes {i : Instr} {s t : State} (h : Completes s i t) :
    t.mem = s.mem ∨ ∃ (u : State) (a : Word) (bs : List Byte), s.store a bs = .next u ∧ t.mem = u.mem := by
  cases h with
  | sb _ _ _ hstore | sh _ _ _ _ hstore => exact .inr ⟨_, _, _, hstore, rfl⟩
  | bgez => left; split <;> simp
  | jalr | register | mtc0 | eret => left; simp
  | trap | mulDiv | mthi | mtlo | teq => exact .inl rfl

/-! ### The invariant -/

/-- Entry 0 of the register file is never written (R11). -/
theorem regs_zero_of_completes {i : Instr} {s t : State} (h : Completes s i t) : t.regs[0] = s.regs[0] := by
  cases h with
  | sb _ _ _ hstore | sh _ _ _ _ hstore => rw [store_frame hstore]; rfl
  | bgez => split <;> simp
  | jalr | register | mtc0 | eret => simp
  | trap | mulDiv | mthi | mtlo | teq => rfl

/-- Outside a delay slot `npc = pc + 4` after an instruction, if it was so before it (R14, R16). -/
theorem sequential_of_completes {i : Instr} {s t : State} (h : Completes s i t) (ht : t.inDelay = false) : t.npc = t.pc + 4 := by
  cases h with
  | bgez => split at * <;> simp_all
  | jalr | register | mtc0 | eret => simp_all
  | sb | sh | trap | mulDiv | mthi | mtlo | teq => rfl

/-- Only BGEZ and JALR lead into a delay slot, and only where there are delay slots (R14, R16). -/
theorem inDelay_of_completes {i : Instr} {s t : State} (h : Completes s i t) : t.inDelay = true → s.cfg.delaySlots = true := by
  cases h with
  | bgez => split <;> simp
  | sb | sh | jalr | register | mtc0 | eret | trap | mulDiv | mthi | mtlo | teq => simp

/-- An instruction keeps the invariant. -/
theorem inv_of_completes {i : Instr} {s t : State} (hinv : s.Inv) (h : Completes s i t) : t.Inv where
  memory := by
    obtain hm | ⟨u, a, bs, hstore, hm⟩ := mem_of_completes h
    · exact hm ▸ hinv.memory
    · exact hm ▸ store_wf hinv.config hinv.memory hstore
  config := cfg_of_completes h ▸ hinv.config
  zero := (regs_zero_of_completes h).trans hinv.zero
  sequential := sequential_of_completes h
  noSlot hslots := by
    rw [cfg_of_completes h] at hslots
    by_contra hslot
    rw [inDelay_of_completes h (Bool.of_not_eq_false hslot)] at hslots
    cases hslots

/-- A step is the completion of an instruction (R15). -/
theorem completes_of_step {s t : State} (h : step s = .next t) : ∃ i, Completes s i t := by
  obtain ⟨-, i, -, hexec⟩ := step_next.1 h
  exact ⟨i, completes_of_exec hexec⟩

/-- Settles O10: a step is the completion of one instruction, and every completion keeps the invariant. -/
theorem stepKeepsTheInvariant : Obligations.StepKeepsTheInvariant := by
  intro s t hinv hstep
  obtain ⟨i, h⟩ := completes_of_step hstep
  exact inv_of_completes hinv h

/-! ### The text of the program -/

/-- A step changes no parameter and no byte of `CodeRegion` (R44). -/
theorem step_keeps_text {s t : State} (h : step s = .next t) :
    t.cfg = s.cfg ∧ ∀ a : Nat, s.cfg.inCode a = true → t.mem.read a = s.mem.read a := by
  obtain ⟨i, h⟩ := completes_of_step h
  refine ⟨cfg_of_completes h, fun a ha => ?_⟩
  obtain hm | ⟨u, b, bs, hstore, hm⟩ := mem_of_completes h
  · rw [hm]
  · rw [hm, store_read_code hstore ha]

/-- Settles O11: induction on the length of the run, a step changing nothing of the text. -/
theorem programTextNeverChanges : Obligations.ProgramTextNeverChanges := by
  intro n
  induction n with
  | zero =>
    intro s t h
    cases h
    exact ⟨rfl, fun _ _ => rfl⟩
  | succ n ih =>
    intro s t h
    obtain ⟨u, hstep, hrun⟩ := andThen_next.1 h
    obtain ⟨hcfg, hread⟩ := step_keeps_text hstep
    obtain ⟨hcfg', hread'⟩ := ih u t hrun
    refine ⟨hcfg'.trans hcfg, fun a ha => ?_⟩
    rw [hread' a (hcfg ▸ ha), hread a ha]

/-! ### Alignment -/

/-- A multiple of 4 plus a multiple of 4 is one. -/
theorem multipleOf4_add {v w : Word} (hv : Claims.multipleOf4 v) (hw : Claims.multipleOf4 w) : Claims.multipleOf4 (v + w) := by
  unfold Claims.multipleOf4 at *
  rw [BitVec.toNat_add]
  omega

/-- The next word's address is aligned with this one's. -/
theorem multipleOf4_add_four {v : Word} (hv : Claims.multipleOf4 v) : Claims.multipleOf4 (v + 4) :=
  multipleOf4_add hv (by unfold Claims.multipleOf4; decide)

/-- A branch offset is a multiple of 4 (R54). -/
theorem multipleOf4_branchOffset (imm16 : Half) : Claims.multipleOf4 (branchOffset imm16) := by
  unfold Claims.multipleOf4
  rw [branchOffset_eq, BitVec.toNat_ofInt]
  omega

/-- A branch to an aligned target leaves `pc` and `npc` aligned, through a slot or not (R16). -/
theorem aligned_branchTo {s : State} {t : Word} (hnpc : Claims.multipleOf4 s.npc) (ht : Claims.multipleOf4 t) :
    Claims.multipleOf4 (s.branchTo t).pc ∧ Claims.multipleOf4 (s.branchTo t).npc := by
  rw [State.branchTo_pc, State.branchTo_npc]
  split
  · exact ⟨hnpc, ht⟩
  · exact ⟨ht, multipleOf4_add_four ht⟩

/-- Settles O12: every other completion goes on at `npc`, at `EXC_VECTOR` or at a branch target, all aligned. -/
theorem onlyJalrAndEretMisalignPc : Obligations.OnlyJalrAndEretMisalignPc := by
  intro i s t hpc hnpc hvector hexec hjalr heret
  have hnext : Claims.multipleOf4 s.npc ∧ Claims.multipleOf4 (s.npc + 4) := ⟨hnpc, multipleOf4_add_four hnpc⟩
  cases completes_of_exec hexec with
  | trap => exact ⟨hvector, multipleOf4_add_four hvector⟩
  | sb _ _ _ hstore | sh _ _ _ _ hstore => rw [store_frame hstore]; exact hnext
  | mulDiv | mthi | mtlo | teq => exact hnext
  | register | mtc0 => simpa using hnext
  | bgez rs imm16 =>
    split
    · exact hnext
    · exact aligned_branchTo hnpc (multipleOf4_add (multipleOf4_add_four hpc) (multipleOf4_branchOffset imm16))
  | jalr rd rs =>
    exact aligned_branchTo (by simpa using hnpc) (hjalr rd rs rfl)
  | eret =>
    have h := heret rfl
    rw [State.exceptionReturn_pc, State.exceptionReturn_npc]
    exact ⟨h, multipleOf4_add_four h⟩

end Sys2Proof.Machine
end

section
/-! What each instruction leaves as it was (10_state.md, the tables after R11 and of R18; R12, R16), from the ways an instruction can complete. -/

namespace Sys2Proof.Machine

/-! ### A branch, with and without delay slots -/

/-- With delay slots a branch leads through the slot (R16). -/
theorem branchTo_of_slots {s : State} (h : s.cfg.delaySlots = true) (a : Word) :
    s.branchTo a = { s with pc := s.npc, npc := a, inDelay := true } :=
  if_pos h

/-- Without delay slots a branch goes to its target at once (R16, R104). -/
theorem branchTo_of_no_slots {s : State} (h : s.cfg.delaySlots = false) (a : Word) : s.branchTo a = s.jumpNow a :=
  if_neg (Bool.not_eq_true _ ▸ h)

/-! ### General registers and memory -/

/-- Settles O13: the completions that write a register write the destination, where `x[0]` discards the write. -/
theorem onlyTheDestinationRegisterChanges : Obligations.OnlyTheDestinationRegisterChanges := by
  intro i s t r hexec hr
  have write_other {q : RegNo} {v : Word} (hq : Claims.destination i = some q) : (s.writeReg q v).readReg r = s.readReg r := by
    rw [State.readReg_writeReg, if_neg]
    rintro ⟨rfl, hne⟩
    exact hr.elim (fun h => h hq) hne
  cases completes_of_exec hexec with
  | register v hdest => rw [State.advance_readReg, write_other hdest]
  | jalr rd rs => rw [State.branchTo_readReg, write_other rfl]
  | sb _ _ _ hstore | sh _ _ _ _ hstore => rw [store_frame hstore]; rfl
  | bgez => split <;> simp
  | mtc0 | eret => simp
  | trap | mulDiv | mthi | mtlo | teq => rfl

/-- Settles O14: a register write of `x[0]` is none, and trap entry writes no register. -/
theorem registerZeroReadsZeroAndDiscardsWrites : Obligations.RegisterZeroReadsZeroAndDiscardsWrites := by
  refine ⟨fun _ => rfl, fun i s t hdest hexec => ?_⟩
  cases completes_of_exec hexec with
  | register v h =>
    cases hdest.symm.trans h
    rfl
  | jalr rd rs =>
    cases hdest
    exact State.branchTo_regs ..
  | mulDiv _ _ _ hi => obtain ⟨rs, rt, rfl | rfl | rfl | rfl⟩ := hi <;> cases hdest
  | trap => rfl
  | sb | sh | bgez | mtc0 | eret | mthi | mtlo | teq => cases hdest

/-- Settles O15: memory changes by a store only, and only SB and SH store. -/
theorem onlyStoresChangeMemory : Obligations.OnlyStoresChangeMemory := by
  intro i s t hexec hi a
  cases completes_of_exec hexec with
  | sb rt base imm16 => exact absurd rfl (hi rt base imm16).1
  | sh rt base imm16 => exact absurd rfl (hi rt base imm16).2
  | bgez => split <;> simp
  | jalr | register | mtc0 | eret => simp
  | trap | mulDiv | mthi | mtlo | teq => rfl

/-- Settles O16: a store leaves every byte outside its own, and trap entry leaves memory. -/
theorem storesChangeTheirBytesOnly : Obligations.StoresChangeTheirBytesOnly := by
  refine fun s t rt base imm16 => ⟨fun hexec a ha => ?_, fun hexec a h0 h1 => ?_⟩
  · obtain ⟨u, hstore, rfl⟩ := exec_next.1 hexec
    exact store_read hstore (by simp; omega)
  · obtain ⟨-, -, -, -, rfl⟩ | ⟨-, u, hstore, rfl⟩ := exec_next.1 hexec
    · rfl
    · exact store_read hstore (by simp; omega)

/-! ### HI, LO and CP0 -/

/-- Settles O17: no other completion writes `HI` or `LO`. -/
theorem onlyTheseWriteHiAndLo : Obligations.OnlyTheseWriteHiAndLo := by
  intro i s t hexec
  cases completes_of_exec hexec with
  | mulDiv _ _ _ hi => exact ⟨fun _ => .inl hi, fun _ => .inl hi⟩
  | mthi rs => exact ⟨fun _ => .inr ⟨rs, rfl⟩, fun h => absurd rfl h⟩
  | mtlo rs => exact ⟨fun h => absurd rfl h, fun _ => .inr ⟨rs, rfl⟩⟩
  | sb _ _ _ hstore | sh _ _ _ _ hstore =>
    rw [store_frame hstore]
    exact ⟨fun h => absurd rfl h, fun h => absurd rfl h⟩
  | bgez => split <;> simp
  | jalr | register | mtc0 | eret => simp
  | trap | teq => simp

/-- The number that names a CP0 register (R18, D19). -/
def cp0Number : Cp0 → RegNo
  | .status => 12
  | .cause => 13
  | .epc => 14
  | .errorEpc => 30

/-- A number names a CP0 register iff it is that register's (R18). -/
theorem cp0Of_eq_some {rd : RegNo} {c : Cp0} : cp0Of rd = some c ↔ rd = cp0Number c := by
  constructor
  · intro h
    unfold cp0Of at h
    split_ifs at h <;> cases h <;> assumption
  · rintro rfl
    cases c <;> rfl

/-- MFC0 of a CP0 register reads all of it (R124). -/
theorem exec_mfc0_of_some {rd : RegNo} {c : Cp0} (hc : cp0Of rd = some c) (rt : RegNo) (s : State) :
    exec (.mfc0 rt rd) s = .next (s.writeReg rt (s.readCp0 c)).advance :=
  exec_next.2 ⟨c, hc, rfl⟩

/-- MTC0 to a CP0 register writes all of it (R126). -/
theorem exec_mtc0_of_some {rd : RegNo} {c : Cp0} (hc : cp0Of rd = some c) (rt : RegNo) (s : State) :
    exec (.mtc0 rt rd) s = .next (s.writeCp0 c (s.readReg rt)).advance :=
  exec_next.2 ⟨c, hc, rfl⟩

/-- MFC0 of any other number is refused (R124). -/
theorem exec_mfc0_of_none {rd : RegNo} (hc : cp0Of rd = none) (rt : RegNo) (s : State) :
    exec (.mfc0 rt rd) s = .refused (.unknownCp0Register rd) := by
  unfold exec execMfc0
  simp only [hc]

/-- MTC0 to any other number is refused (R126). -/
theorem exec_mtc0_of_none {rd : RegNo} (hc : cp0Of rd = none) (rt : RegNo) (s : State) :
    exec (.mtc0 rt rd) s = .refused (.unknownCp0Register rd) := by
  unfold exec execMtc0
  simp only [hc]

/-- Settles O20: CP0 is written by trap entry, ERET and MTC0, which writes the register its number names. -/
theorem onlyTheseWriteCp0 : Obligations.OnlyTheseWriteCp0 := by
  intro i s t hexec
  cases completes_of_exec hexec with
  | trap hraised => simp [hraised]
  | mtc0 rt rd hc =>
    obtain rfl := cp0Of_eq_some.1 hc
    rename_i c
    cases c <;> simp [cp0Number]
  | eret => simp
  | sb _ _ _ hstore | sh _ _ _ _ hstore => rw [store_frame hstore]; simp
  | bgez => split <;> simp
  | jalr | register | mulDiv | mthi | mtlo | teq => simp

/-! ### Endings, trap entry and refusals -/

/-- Settles O22: every completion but a trap entry and those of the three control transfers ends in `advance`. -/
theorem otherInstructionsAdvance : Obligations.OtherInstructionsAdvance := by
  intro i s t hexec hraised heret hbgez hjalr
  cases completes_of_exec hexec with
  | trap h => cases hraised.symm.trans h
  | bgez rs imm16 => exact absurd rfl (hbgez rs imm16)
  | jalr rd rs => exact absurd rfl (hjalr rd rs)
  | eret => exact absurd rfl heret
  | sb _ _ _ hstore | sh _ _ _ _ hstore => rw [store_frame hstore]; exact ⟨rfl, rfl, rfl⟩
  | register | mtc0 => simp
  | mulDiv | mthi | mtlo | teq => exact ⟨rfl, rfl, rfl⟩

/-- Trap entry is what R145 says. -/
theorem entered_trapEntry (s : State) (e : Exc) : Claims.entered s (s.trapEntry e) e := by
  refine ⟨?code, fun k hk hout => ?cause, ?exl, fun k hk hne => ?status, rfl⟩
  case code =>
    rw [State.trapEntry_cause, excCode_setExcCode]
    cases e <;> rfl
  case cause =>
    rw [State.trapEntry_cause, setExcCode_bit _ _ hk, if_neg (by omega)]
  case exl =>
    rw [State.trapEntry_status, setExl_bit _ (by decide)]
    simp
  case status =>
    rw [State.trapEntry_status, setExl_bit _ hk]
    simp [hne]

/-- An instruction that raises outside a delay slot with EXL and ERL 0 takes trap entry (R145). -/
theorem entered_of_raised {i : Instr} {s : State} {e : Exc} (h : Claims.raised s i = some e) (hslot : s.inDelay = false)
    (hexl : s.status.getLsbD 1 = false) (herl : s.status.getLsbD 2 = false) : ∃ t, exec i s = .next t ∧ Claims.entered s t e :=
  ⟨s.trapEntry e, (exec_of_raised h).trans (raise_of_clear hslot hexl herl e), entered_trapEntry s e⟩

/-- An instruction that raises outside a delay slot while EXL or ERL is 1 is refused (R150). -/
theorem nested_of_raised {i : Instr} {s : State} {e : Exc} (h : Claims.raised s i = some e) (hslot : s.inDelay = false)
    (hnested : s.status.getLsbD 1 = true ∨ s.status.getLsbD 2 = true) : exec i s = .refused .nestedException :=
  (exec_of_raised h).trans (raise_refused.2 (.inr ⟨hslot, hnested, rfl⟩))

/-- An instruction that raises nothing is not refused for an exception (R150, R151). -/
theorem not_refused_of_not_raised {i : Instr} {s : State} (h : Claims.raised s i = none) :
    exec i s ≠ .refused .exceptionInDelaySlot ∧ exec i s ≠ .refused .nestedException := by
  constructor
  · intro hexec
    cases refusedFor_of_exec hexec with
    | exception hraised => cases h.symm.trans hraised
  · intro hexec
    cases refusedFor_of_exec hexec with
    | exception hraised => cases h.symm.trans hraised

/-- ERET clears EXL, unless it clears ERL (R120). -/
theorem exceptionReturn_exl (s : State) : s.exceptionReturn.exl = (s.exl && s.erl) := by
  rw [State.exl, State.exceptionReturn_status]
  split
  case isTrue herl => rw [clearErl_bit _ (by decide), herl, State.exl]; rfl
  case isFalse herl => rw [clearExl_bit _ (by decide), Bool.eq_false_iff.2 herl, Bool.and_false]; exact Bool.and_false _

/-- ERL is 0 after ERET: it was so, or is cleared (R120). -/
theorem exceptionReturn_erl (s : State) : s.exceptionReturn.erl = false := by
  rw [State.erl, State.exceptionReturn_status]
  split
  case isTrue => rw [clearErl_bit _ (by decide)]; exact Bool.and_false _
  case isFalse herl => rw [clearExl_bit _ (by decide)]; exact (Bool.and_true _).trans (Bool.eq_false_iff.2 herl)

/-- Settles O23: an instruction that raises answers what `raise` answers; one that does not completes in another way or is refused for another
reason. -/
theorem exactlyTheRaisingInstructionsEnterTheHandler : Obligations.ExactlyTheRaisingInstructionsEnterTheHandler := by
  refine fun i s => ⟨fun e he => ⟨fun hslot => ?_, nested_of_raised he, entered_of_raised he⟩, fun hnone => ?_⟩
  · rw [exec_of_raised he, raise_refused]
    exact .inl ⟨hslot, rfl⟩
  obtain ⟨hslot, hnested⟩ := not_refused_of_not_raised hnone
  refine ⟨hslot, hnested, fun t hexec => ⟨fun hi => ?epc, fun hi => ?cause, fun hi hexl => ?exl, fun hbgez hjalr heret => ?pc⟩⟩
  case epc =>
    by_contra hne
    obtain ⟨-, -, hepc, -⟩ := onlyTheseWriteCp0 i s t hexec
    exact (hepc hne).elim (fun ⟨rt, h⟩ => hi rt h) (fun h => h hnone)
  case cause =>
    by_contra hne
    obtain ⟨-, hcause, -, -⟩ := onlyTheseWriteCp0 i s t hexec
    exact (hcause hne).elim (fun ⟨rt, h⟩ => hi rt h) (fun h => h hnone)
  case exl =>
    by_cases heq : t.status = s.status
    · rwa [heq] at hexl
    obtain ⟨hstatus, -⟩ := onlyTheseWriteCp0 i s t hexec
    obtain rfl | ⟨rt, h⟩ | h := hstatus heq
    · obtain ⟨-, rfl⟩ := exec_next.1 hexec
      exact (Bool.and_eq_true_iff.1 ((exceptionReturn_exl s).symm.trans hexl)).1
    · exact absurd h (hi rt)
    · exact absurd hnone h
  case pc => exact (otherInstructionsAdvance i s t hexec hnone heret hbgez hjalr).1

/-- Settles O24: a control transfer or an exception is refused so in a slot only, and only `DELAY_SLOTS` leads into one. -/
theorem withoutDelaySlotsThereIsNone : Obligations.WithoutDelaySlotsThereIsNone := by
  intro i s hslots hslot
  refine ⟨fun hexec => ?_, fun hexec => ?_, fun t hexec => ?_⟩
  · cases refusedFor_of_exec hexec with
    | transfer _ h => cases hslot.symm.trans h
    | exception _ h => simp [raise_refused] at h
  · cases refusedFor_of_exec hexec with
    | exception _ h => simp [raise_refused, hslot] at h
  · by_contra ht
    rw [inDelay_of_completes (completes_of_exec hexec) (Bool.of_not_eq_false ht)] at hslots
    cases hslots

/-- Settles O42: in a slot the three are refused before anything else, and no other instruction answers that refusal. -/
theorem controlTransfersInADelaySlotAreRefused : Obligations.ControlTransfersInADelaySlotAreRefused := by
  refine fun i s => ⟨fun hexec => ?_, ?_⟩
  · cases refusedFor_of_exec hexec with
    | transfer hi hslot => exact ⟨hslot, hi⟩
    | exception _ h => simp [raise_refused] at h
  · rintro ⟨hslot, ⟨rs, imm16, rfl⟩ | ⟨rd, rs, rfl⟩ | rfl⟩
    · exact transfer_refused.2 ⟨hslot, rfl⟩
    · exact transfer_refused.2 ⟨hslot, rfl⟩
    · exact transfer_refused.2 ⟨hslot, rfl⟩

end Sys2Proof.Machine
end

section
/-! What no instruction looks at (10_state.md R12, R19, R24): `HI`, `LO`, `LLbit` and the bits of Status but EXL and ERL are carried through,
each reaching nothing but itself, except through MFHI, MFLO and MFC0 of Status. -/

namespace Sys2Proof.Machine

/-- `s` with other values in the four registers that (almost) nothing reads. -/
def State.withHidden (s : State) (h l : Word) (b : Bool) (v : Word) : State := { s with hi := h, lo := l, llbit := b, status := v }

/-- The bits of Status that instructions look at, EXL and ERL, are the same in `v` and `w`. -/
def SameNesting (v w : Word) : Prop := v.getLsbD 1 = w.getLsbD 1 ∧ v.getLsbD 2 = w.getLsbD 2

/-- Two answers that are the same but for hidden values, where each hidden value that was equal before (`h = s.hi`, …) is equal after. -/
inductive SameButHidden (s : State) (h l : Word) (b : Bool) (v : Word) : Result → Result → Prop where
  | next (t : State) (h' l' : Word) (b' : Bool) (v' : Word) (hh : h = s.hi → h' = t.hi) (hl : l = s.lo → l' = t.lo)
      (hb : b = s.llbit → b' = t.llbit) (hv : v = s.status → v' = t.status) (hnest : SameNesting v' t.status) :
      SameButHidden s h l b v (.next t) (.next (t.withHidden h' l' b' v'))
  | fault (e : Fault) : SameButHidden s h l b v (.fault e) (.fault e)
  | refused (e : Refusal) : SameButHidden s h l b v (.refused e) (.refused e)

section
variable {s : State} {h l : Word} {b : Bool} {v : Word}

/-- A state that has the hidden values of `s` may as well have the others. -/
theorem SameButHidden.carried {t : State} (hhi : t.hi = s.hi) (hlo : t.lo = s.lo) (hllbit : t.llbit = s.llbit)
    (hstatus : t.status = s.status) (hnest : SameNesting v s.status) :
    SameButHidden s h l b v (.next t) (.next (t.withHidden h l b v)) :=
  .next t h l b v (·.trans hhi.symm) (·.trans hlo.symm) (·.trans hllbit.symm) (·.trans hstatus.symm) (hstatus ▸ hnest)

/-- Answers that test conditions of the same truth value are alike if their branches are. -/
theorem SameButHidden.ite {p q : Prop} [Decidable p] [Decidable q] (hpq : p ↔ q) {x x' y y' : Result}
    (hthen : SameButHidden s h l b v x y) (helse : SameButHidden s h l b v x' y') :
    SameButHidden s h l b v (if p then x else x') (if q then y else y') := by
  by_cases hp : p
  · rwa [if_pos hp, if_pos (hpq.1 hp)]
  · rwa [if_neg hp, if_neg (mt hpq.2 hp)]

/-- Answers that go on alike from one value are alike. -/
theorem SameButHidden.andThen {α : Type} (x : Host.Outcome α Fault Refusal) {f g : α → Result}
    (hfg : ∀ a, SameButHidden s h l b v (f a) (g a)) : SameButHidden s h l b v (andThen x f) (andThen x g) := by
  cases x with
  | next a => exact hfg a
  | fault e => exact .fault e
  | refused e => exact .refused e

/-- A register write does not look at the hidden values. -/
theorem withHidden_writeReg (r : RegNo) (x : Word) :
    (s.withHidden h l b v).writeReg r x = (s.writeReg r x).withHidden h l b v := by
  unfold State.writeReg
  split <;> rfl

/-- A branch does not look at the hidden values. -/
theorem withHidden_branchTo (a : Word) : (s.withHidden h l b v).branchTo a = (s.branchTo a).withHidden h l b v := by
  cases hslots : s.cfg.delaySlots with
  | true =>
    rw [branchTo_of_slots hslots]
    exact branchTo_of_slots (s := s.withHidden h l b v) hslots a
  | false =>
    rw [branchTo_of_no_slots hslots]
    exact branchTo_of_no_slots (s := s.withHidden h l b v) hslots a

/-- A register write that advances carries hidden values through. -/
theorem SameButHidden.writeReg_advance (hnest : SameNesting v s.status) (r : RegNo) (x : Word) :
    SameButHidden s h l b v (.next (s.writeReg r x).advance) (.next ((s.withHidden h l b v).writeReg r x).advance) := by
  rw [withHidden_writeReg]
  exact .carried (t := (s.writeReg r x).advance) (by simp) (by simp) (by simp) (by simp) hnest

/-- What goes on from a test goes on from each of its branches. -/
theorem andThen_ite {α β : Type} (p : Prop) [Decidable p] (x y : Host.Outcome α Fault Refusal) (f : α → Host.Outcome β Fault Refusal) :
    Machine.andThen (if p then x else y) f = if p then Machine.andThen x f else Machine.andThen y f :=
  apply_ite (Machine.andThen · f) p x y

/-- A store that advances carries hidden values through. -/
theorem SameButHidden.store_advance (hnest : SameNesting v s.status) (a : Word) (bs : List Byte) :
    SameButHidden s h l b v (Machine.andThen (s.store a bs) fun t => .next t.advance)
      (Machine.andThen ((s.withHidden h l b v).store a bs) fun t => .next t.advance) := by
  simp only [State.store, andThen_ite]
  exact .ite Iff.rfl (.refused _)
    (.ite Iff.rfl (.carried (t := State.advance { s with mem := s.mem.writeBytes a.toNat bs }) rfl rfl rfl rfl hnest) (.fault _))

/-- Setting EXL keeps EXL and ERL the same in both. -/
theorem SameNesting.setExl {v w : Word} (h : SameNesting v w) : SameNesting (setExl v) (setExl w) := by
  constructor <;> rw [setExl_bit _ (by decide), setExl_bit _ (by decide)]
  · rw [h.1]
  · rw [h.2]

/-- Clearing EXL keeps EXL and ERL the same in both. -/
theorem SameNesting.clearExl {v w : Word} (h : SameNesting v w) : SameNesting (clearExl v) (clearExl w) := by
  constructor <;> rw [clearExl_bit _ (by decide), clearExl_bit _ (by decide)]
  · rw [h.1]
  · rw [h.2]

/-- Clearing ERL keeps EXL and ERL the same in both. -/
theorem SameNesting.clearErl {v w : Word} (h : SameNesting v w) : SameNesting (clearErl v) (clearErl w) := by
  constructor <;> rw [clearErl_bit _ (by decide), clearErl_bit _ (by decide)]
  · rw [h.1]
  · rw [h.2]

/-- Raising an exception looks at EXL and ERL only (R145, R150). -/
theorem SameButHidden.raise (hnest : SameNesting v s.status) (e : Exc) :
    SameButHidden s h l b v (s.raise e) ((s.withHidden h l b v).raise e) := by
  have hcond : (s.exl || s.erl) = ((s.withHidden h l b v).exl || (s.withHidden h l b v).erl) :=
    congrArg₂ or hnest.1.symm hnest.2.symm
  exact .ite Iff.rfl (.refused _) (.ite (by rw [hcond]) (.refused _)
    (.next (s.trapEntry e) h l b (Machine.setExl v) id id id (congrArg Machine.setExl) hnest.setExl))

/-- The return from an exception looks at ERL, and clears `LLbit` and one bit of Status (R120). -/
theorem SameButHidden.exceptionReturn (hnest : SameNesting v s.status) :
    SameButHidden s h l b v (.next s.exceptionReturn) (.next (s.withHidden h l b v).exceptionReturn) := by
  have herl : s.erl = true ↔ (s.withHidden h l b v).erl = true := by
    rw [show (s.withHidden h l b v).erl = s.erl from hnest.2]
  simp only [State.exceptionReturn, apply_ite Host.Outcome.next]
  refine .ite herl ?_ ?_
  · exact .next (State.jumpNow { s with status := clearErl s.status, llbit := false } s.errorEpc) h l false (clearErl v)
      id id (fun _ => rfl) (congrArg clearErl) hnest.clearErl
  · exact .next (State.jumpNow { s with status := clearExl s.status, llbit := false } s.epc) h l false (clearExl v)
      id id (fun _ => rfl) (congrArg clearExl) hnest.clearExl

end

/-- An instruction carries the hidden values through, unless it is one of the three that read one, where that one was equal before. -/
theorem exec_withHidden (i : Instr) (s : State) (h l : Word) (b : Bool) (v : Word) (hnest : SameNesting v s.status)
    (hmfhi : ∀ rd, i = .mfhi rd → h = s.hi) (hmflo : ∀ rd, i = .mflo rd → l = s.lo) (hmfc0 : ∀ rt, i = .mfc0 rt 12 → v = s.status) :
    SameButHidden s h l b v (exec i s) (exec i (s.withHidden h l b v)) := by
  cases i with
  | clz rd rs => exact .writeReg_advance hnest _ _
  | mfhi rd =>
    obtain rfl := hmfhi rd rfl
    exact .writeReg_advance hnest _ _
  | mflo rd =>
    obtain rfl := hmflo rd rfl
    exact .writeReg_advance hnest _ _
  | mfc0 rt rd =>
    rcases hc : cp0Of rd with _ | c
    · rw [exec_mfc0_of_none hc, exec_mfc0_of_none hc]
      exact .refused _
    · have hread : (s.withHidden h l b v).readCp0 c = s.readCp0 c := by
        cases c with
        | status => exact hmfc0 rt (cp0Of_eq_some.1 hc ▸ rfl)
        | cause | epc | errorEpc => rfl
      rw [exec_mfc0_of_some hc, exec_mfc0_of_some hc, hread]
      exact .writeReg_advance hnest _ _
  | mtc0 rt rd =>
    rcases hc : cp0Of rd with _ | c
    · rw [exec_mtc0_of_none hc, exec_mtc0_of_none hc]
      exact .refused _
    · rw [exec_mtc0_of_some hc, exec_mtc0_of_some hc]
      cases c with
      | status => exact .next (s.writeCp0 .status (s.readReg rt)).advance h l b (s.readReg rt) id id id (fun _ => rfl) ⟨rfl, rfl⟩
      | cause => exact .carried (t := (s.writeCp0 .cause (s.readReg rt)).advance) rfl rfl rfl rfl hnest
      | epc => exact .carried (t := (s.writeCp0 .epc (s.readReg rt)).advance) rfl rfl rfl rfl hnest
      | errorEpc => exact .carried (t := (s.writeCp0 .errorEpc (s.readReg rt)).advance) rfl rfl rfl rfl hnest
  | lb | lbu => exact .andThen _ fun _ => .writeReg_advance hnest _ _
  | lh | lhu => exact .ite Iff.rfl (.raise hnest _) (.andThen _ fun _ => .writeReg_advance hnest _ _)
  | sb => exact .store_advance hnest _ _
  | sh => exact .ite Iff.rfl (.raise hnest _) (.store_advance hnest _ _)
  | brk | syscall => exact .raise hnest _
  | teq => exact .ite Iff.rfl (.raise hnest _) (.carried (t := s.advance) rfl rfl rfl rfl hnest)
  | mult rs rt =>
    rw [exec_mult]
    exact .next _ _ _ b v (fun _ => rfl) (fun _ => rfl) id id hnest
  | multu rs rt =>
    rw [exec_multu]
    exact .next _ _ _ b v (fun _ => rfl) (fun _ => rfl) id id hnest
  | div | divu =>
    exact .ite Iff.rfl (.next _ _ _ b v (fun _ => rfl) (fun _ => rfl) id id hnest)
      (.next _ _ _ b v (fun _ => rfl) (fun _ => rfl) id id hnest)
  | mthi rs =>
    rw [exec_mthi]
    exact .next _ _ l b v (fun _ => rfl) id id id hnest
  | mtlo rs =>
    rw [exec_mtlo]
    exact .next _ h _ b v id (fun _ => rfl) id id hnest
  | bgez rs imm16 =>
    refine .ite Iff.rfl (.refused _) ?_
    rw [withHidden_branchTo, apply_ite Host.Outcome.next, apply_ite Host.Outcome.next]
    exact .ite Iff.rfl (.carried (t := s.branchNotTaken) rfl rfl rfl rfl hnest) (.carried (by simp) (by simp) (by simp) (by simp) hnest)
  | jalr rd rs =>
    refine .ite Iff.rfl (.refused _) ?_
    rw [withHidden_writeReg, withHidden_branchTo]
    exact .carried (t := (s.writeReg rd s.link).branchTo (s.readReg rs)) (by simp) (by simp) (by simp) (by simp) hnest
  | eret => exact .ite Iff.rfl (.refused _) (.exceptionReturn hnest)

/-- Answers that are the same but for hidden values agree, where what is erased erases their difference. -/
theorem SameButHidden.agree {s : State} {h l : Word} {b : Bool} {v : Word} {x y : Result} (hxy : SameButHidden s h l b v x y)
    {erase : State → State}
    (herase : ∀ t h' l' b' v', (h = s.hi → h' = t.hi) → (l = s.lo → l' = t.lo) → (b = s.llbit → b' = t.llbit) →
      (v = s.status → v' = t.status) → SameNesting v' t.status → erase t = erase (t.withHidden h' l' b' v')) :
    Claims.agree erase x y := by
  cases hxy with
  | next t h' l' b' v' hh hl hb hv hnest => exact herase t h' l' b' v' hh hl hb hv hnest
  | fault e => exact rfl
  | refused e => exact rfl

/-- Settles O18: `HI` and `LO` reach themselves only, `LLbit` and Status being equal before and so after. -/
theorem hiAndLoReachNothingElse : Obligations.HiAndLoReachNothingElse := by
  intro i s h l hi
  refine (exec_withHidden i s h l s.llbit s.status ⟨rfl, rfl⟩ (fun rd h => absurd h (hi rd).1) (fun rd h => absurd h (hi rd).2)
    fun _ _ => rfl).agree fun t h' l' b' v' _ _ hb hv _ => ?_
  rw [hb rfl, hv rfl]
  rfl

/-- LLbit is written by ERET only, which clears it (R24). -/
theorem llbit_of_completes {i : Instr} {s t : State} (h : Completes s i t) (hi : i ≠ .eret) : t.llbit = s.llbit := by
  cases h with
  | eret => exact absurd rfl hi
  | sb _ _ _ hstore | sh _ _ _ _ hstore => rw [store_frame hstore]; rfl
  | bgez => split <;> simp
  | jalr | register | mtc0 => simp
  | trap | mulDiv | mthi | mtlo | teq => rfl

/-- Settles O19: `LLbit` is written by ERET only, and reaches itself only. -/
theorem lLbitIsClearedByEretAndReadByNothing : Obligations.LLbitIsClearedByEretAndReadByNothing := by
  refine ⟨fun i s t hexec => ?_, fun i s b => ?_⟩
  · split
    case isTrue hi =>
      subst hi
      obtain ⟨-, rfl⟩ := exec_next.1 hexec
      exact State.exceptionReturn_llbit s
    case isFalse hi => exact llbit_of_completes (completes_of_exec hexec) hi
  · refine (exec_withHidden i s s.hi s.lo b s.status ⟨rfl, rfl⟩ (fun _ _ => rfl) (fun _ _ => rfl) fun _ _ => rfl).agree
      fun t h' l' b' v' hh hl _ hv _ => ?_
    rw [hh rfl, hl rfl, hv rfl]
    rfl

/-- EXL and ERL are all that is left of Status under the mask of their two bits. -/
theorem SameNesting.masked {v w : Word} (h : SameNesting v w) : v &&& 0x00000006 = w &&& 0x00000006 := by
  have hmask : ∀ k < 32, (0x00000006 : Word).getLsbD k = (decide (k = 1) || decide (k = 2)) := by decide
  apply BitVec.eq_of_getLsbD_eq
  intro k hk
  rw [BitVec.getLsbD_and, BitVec.getLsbD_and, hmask k hk]
  by_cases h1 : k = 1
  · rw [h1, h.1]
  · by_cases h2 : k = 2
    · rw [h2, h.2]
    · simp [h1, h2]

/-- Settles O21: the other bits of Status reach Status only, and EXL and ERL stay equal. -/
theorem otherStatusBitsHaveNoEffect : Obligations.OtherStatusBitsHaveNoEffect := by
  intro i s v hi hexl herl
  refine (exec_withHidden i s s.hi s.lo s.llbit v ⟨hexl, herl⟩ (fun _ _ => rfl) (fun _ _ => rfl)
    fun rt h => absurd h (hi rt)).agree fun t h' l' b' v' hh hl hb _ hnest => ?_
  rw [hh rfl, hl rfl, hb rfl]
  exact congrArg (fun w => { t with status := w }) hnest.masked.symm

end Sys2Proof.Machine
end

section
/-! The step (10_state.md R15): what the fetch answers from four bytes, the order of the reasons to stop before an instruction, and the load of
one word (log 16). -/

namespace Sys2Proof.Machine

/-! ### From the fetch to the step -/

/-- The run has not ended, as the rule states it (R15 step 1). -/
theorem ended_false {s : State} (h : ¬ (s.cfg.haltPc = some s.pc ∧ s.inDelay = false)) : s.ended = false :=
  Bool.eq_false_iff.2 (mt ended_iff.1 h)

/-- Where the run has not ended, a step goes on from the instruction at `pc` (R15). -/
theorem step_of_not_ended {s : State} (h : s.ended = false) : step s = andThen s.fetchInstr fun i => exec i s :=
  if_neg (Bool.eq_false_iff.1 h)

/-- At an aligned `pc` the instruction is decoded from the word fetched, or the step stops as the fetch stopped (R15 steps 3 and 4). -/
theorem step_of_fetch_fault {s : State} {e : Fault} (hended : s.ended = false) (hpc : Claims.multipleOf4 s.pc) (h : s.fetch = .fault e) :
    step s = .fault e := by
  rw [step_of_not_ended hended, State.fetchInstr, if_pos (aligned_iff.2 hpc), h]
  rfl

/-- A word that is an instruction is run (R15 steps 4 to 7). -/
theorem step_of_fetch_next {s : State} {w : Word} {i : Instr} (hended : s.ended = false) (hpc : Claims.multipleOf4 s.pc)
    (h : s.fetch = .next w) (hdecode : decode w = .ok i) : step s = exec i s := by
  rw [step_of_not_ended hended, fetchInstr_next.2 ⟨aligned_iff.2 hpc, w, h, hdecode⟩]
  rfl

/-- A word that is no instruction is refused by name (R15 step 4, R62). -/
theorem step_of_fetch_unknown {s : State} {w : Word} (hended : s.ended = false) (hpc : Claims.multipleOf4 s.pc)
    (h : s.fetch = .next w) (hdecode : ∀ i, ¬ Claims.reads w i) : step s = .refused (.unknownEncoding w) := by
  rw [step_of_not_ended hended, State.fetchInstr, if_pos (aligned_iff.2 hpc), h, andThen_of_next]
  rcases hw : decode w with e | i
  · rfl
  · exact absurd hw (hdecode i)

/-! ### The word of four bytes -/

/-- The word of four bytes as their concatenation, in the byte order (R33). -/
theorem joinWord_eq_append (big : Bool) (b0 b1 b2 b3 : Byte) :
    joinWord big b0 b1 b2 b3 = if big then b0 ++ b1 ++ b2 ++ b3 else b3 ++ b2 ++ b1 ++ b0 := by
  unfold joinWord
  rw [wordOf_eq_append, wordOf_eq_append]

/-- The byte of a word at distance `k` from its lowest address, in the byte order (R36). -/
def byteAtDistance (big : Bool) (w : Word) (k : Nat) : Byte := byteOf w (if big then 3 - k else k)

/-- The four bytes of a word give the word back (R33, R36). -/
theorem joinWord_bytes (big : Bool) (w : Word) :
    joinWord big (byteAtDistance big w 0) (byteAtDistance big w 1) (byteAtDistance big w 2) (byteAtDistance big w 3) = w := by
  cases big <;> exact wordOf_bytes w

/-- The bytes of a word stand at their distances (R36). -/
theorem splitWord_getElem (big : Bool) (w : Word) {k : Nat} (hk : k < 4) : (splitWord big w)[k]? = some (byteAtDistance big w k) := by
  interval_cases k <;> cases big <;> rfl

/-- An admitted fetch of the four bytes of a word answers that word (R36). -/
theorem fetch_of_bytes {s : State} {w : Word} (hcode : ∀ k < 4, s.cfg.inCode (s.pc.toNat + k) = true)
    (hread : ∀ k < 4, s.mem.read (s.pc.toNat + k) = some (byteAtDistance s.cfg.bigEndian w k)) : s.fetch = .next w :=
  fetch_next.2 ⟨admitsFetch_iff.2 hcode, _, _, _, _, hread 0 (by decide), hread 1 (by decide), hread 2 (by decide), hread 3 (by decide),
    (joinWord_bytes s.cfg.bigEndian w).symm⟩

/-! ### The obligations -/

/-- Settles O5: the four bytes are the word fetched. -/
theorem stepRunsTheDecodedInstruction : Obligations.StepRunsTheDecodedInstruction := by
  intro s b0 b1 b2 b3 i hended hpc hcode h0 h1 h2 h3 hdecode
  rw [← joinWord_eq_append] at hdecode
  exact step_of_fetch_next (ended_false hended) hpc (fetch_next.2 ⟨admitsFetch_iff.2 hcode, b0, b1, b2, b3, h0, h1, h2, h3, rfl⟩) hdecode

/-- Settles O6: each clause is one branch of the step, of the fetch or of the decoder, those before it being ruled out. -/
theorem stepStopsBeforeAnInstructionInThisOrder : Obligations.StepStopsBeforeAnInstructionInThisOrder := by
  refine fun s => ⟨fun hended => if_pos (ended_iff.2 hended), fun hended => ⟨fun hpc => ?misaligned, fun hpc => ⟨?notAdmitted, fun hcode =>
    ⟨fun hnone => ?unwritten, fun w hread hunknown => ?unknown⟩⟩⟩⟩
  case misaligned =>
    rw [step_of_not_ended (ended_false hended), State.fetchInstr, if_neg (mt aligned_iff.1 hpc)]
    rfl
  case notAdmitted =>
    rintro ⟨k, hk, hcode⟩
    have hnot : ¬ s.admitsFetch s.pc.toNat = true := fun h => by
      rw [admitsFetch_iff.1 h k hk] at hcode
      cases hcode
    exact step_of_fetch_fault (ended_false hended) hpc (if_neg hnot)
  case unwritten => exact step_of_fetch_fault (ended_false hended) hpc (fetch_of_unwritten (admitsFetch_iff.2 hcode) hnone)
  case unknown => exact step_of_fetch_unknown (ended_false hended) hpc (fetch_of_bytes hcode hread) hunknown

/-- A word of 32 bits is its own table word. -/
theorem tableWord_toNat (w : Word) : tableWord 32 w.toNat = w := by
  rw [tableWord, Nat.mod_eq_of_lt w.isLt, BitVec.ofNat_toNat, BitVec.setWidth_eq]

/-- With the parameters of `withFetchWord` the run has not ended at `pc` (log 16). -/
theorem withFetchWord_not_ended (s : State) (n w : Nat) : (s.withFetchWord n w).ended = false := by
  refine ended_false fun ⟨hhalt, _⟩ => ?_
  change (if s.cfg.haltPc = some s.pc then none else s.cfg.haltPc) = some s.pc at hhalt
  split at hhalt
  · cases hhalt
  · contradiction

/-- The word placed at `pc` is the word fetched (R36, R181; log 16). -/
theorem withFetchWord_fetch (s : State) (w : Word) : (s.withFetchWord 32 w.toNat).fetch = .next w := by
  refine fetch_of_bytes (admitsFetch_iff.1 (fetchingConfig_inCode s.cfg s.pc)) fun k hk => ?_
  show (s.mem.writeBytes s.pc.toNat (splitWord s.cfg.bigEndian (tableWord 32 w.toNat))).read (s.pc.toNat + k) = _
  rw [tableWord_toNat, Memory.read_writeBytes, if_pos (by rw [splitWord_length]; omega), Nat.add_sub_cancel_left]
  exact splitWord_getElem _ _ hk

/-- Settles O7: the word placed is fetched and decodes to the instruction. -/
theorem placedWordIsTheNextInstruction : Obligations.PlacedWordIsTheNextInstruction :=
  fun s i hpc => step_of_fetch_next (withFetchWord_not_ended ..) hpc (withFetchWord_fetch s (encode i))
    (Encoding.encodedInstructionDecodesToItself i)

end Sys2Proof.Machine
end

section
/-! The divides (40_muldiv.md R72 to R75): the quotient and remainder that the rules define are the library's truncated ones. -/

namespace Sys2Proof.Machine

/-- The rules' quotient is the one rounded toward zero (R72, D16). -/
theorem signedQuot_eq_tdiv (a b : Int) : signedQuot a b = a.tdiv b := by
  rw [← Int.sign_mul_natAbs (a.tdiv b), Int.sign_tdiv, Int.natAbs_tdiv, signedQuot]
  split
  case isTrue hlt =>
    have hzero : a.natAbs / b.natAbs = 0 := Nat.div_eq_of_lt hlt
    rw [hzero, Int.zero_mul]
    exact Int.mul_zero _
  case isFalse => rfl

/-- The quotient that DIV leaves is the machine quotient of the words. -/
theorem ofInt_signedQuot (a b : Word) : BitVec.ofInt 32 (signedQuot a.toInt b.toInt) = a.sdiv b := by
  apply BitVec.eq_of_toInt_eq
  rw [signedQuot_eq_tdiv, BitVec.toInt_ofInt, BitVec.toInt_sdiv]

/-- The remainder that DIV leaves is the machine remainder of the words. -/
theorem ofInt_signedRem (a b : Word) : BitVec.ofInt 32 (a.toInt - signedQuot a.toInt b.toInt * b.toInt) = a.srem b := by
  rw [signedQuot_eq_tdiv, Int.mul_comm, ← Int.tmod_def, ← BitVec.toInt_srem, BitVec.ofInt_toInt]

/-- DIV by a divisor that is not 0 leaves the machine quotient in `LO` and the machine remainder in `HI` (R74). -/
theorem exec_div_eq_sdiv {rs rt : RegNo} {s : State} (h : s.readReg rt ≠ 0) :
    exec (.div rs rt) s = .next (s.writeHiLo ((s.readReg rs).srem (s.readReg rt)) ((s.readReg rs).sdiv (s.readReg rt))).advance := by
  rw [exec_div_nonzero h, ofInt_signedRem, ofInt_signedQuot]

/-- Settles O27: outside the corner the machine quotient has the value of the truncated one, and the remainder always has. -/
theorem divLeavesQuotientAndRemainder : Obligations.DivLeavesQuotientAndRemainder := by
  intro rs rt s hdivisor
  refine ⟨_, exec_div_eq_sdiv hdivisor, fun hcorner => ?_, fun ⟨hrs, hrt⟩ => ?_, rfl⟩
  all_goals rw [State.advance_hi, State.advance_lo, State.writeHiLo_hi, State.writeHiLo_lo]
  · have hquot := BitVec.toInt_sdiv_of_ne_or_ne (s.readReg rs) (s.readReg rt) (not_and_or.1 hcorner)
    have hne : (s.readReg rt).toInt ≠ 0 := fun h => hdivisor (BitVec.toInt_inj.1 h)
    rw [hquot, BitVec.toInt_srem]
    refine ⟨Int.tdiv_mul_add_tmod .., ?_, ?_⟩
    · rw [Int.natAbs_tmod]
      exact Nat.mod_lt _ (Int.natAbs_pos.2 hne)
    · rw [Int.sign_tmod]
      split
      case isTrue hdvd => exact .inl (Int.tmod_eq_zero_of_dvd hdvd)
      case isFalse => exact .inr rfl
  · rw [hrs, hrt]
    decide

/-- The quotient that DIVU leaves is the unsigned machine quotient of the words. -/
theorem ofNat_quot (a b : Word) : BitVec.ofNat 32 (a.toNat / b.toNat) = a / b := by
  rw [← BitVec.toNat_udiv, BitVec.ofNat_toNat, BitVec.setWidth_eq]

/-- The remainder that DIVU leaves is the unsigned machine remainder of the words. -/
theorem ofNat_rem (a b : Word) : BitVec.ofNat 32 (a.toNat - a.toNat / b.toNat * b.toNat) = a % b := by
  rw [← Nat.mod_eq_sub_div_mul, ← BitVec.toNat_umod, BitVec.ofNat_toNat, BitVec.setWidth_eq]

/-- DIVU by a divisor that is not 0 leaves the unsigned machine quotient in `LO` and the remainder in `HI` (R75). -/
theorem exec_divu_eq_udiv {rs rt : RegNo} {s : State} (h : s.readReg rt ≠ 0) :
    exec (.divu rs rt) s = .next (s.writeHiLo (s.readReg rs % s.readReg rt) (s.readReg rs / s.readReg rt)).advance := by
  rw [exec_divu_nonzero h, ofNat_rem, ofNat_quot]

/-- Settles O28: the machine quotient and remainder have the values of the natural ones. -/
theorem divuLeavesQuotientAndRemainder : Obligations.DivuLeavesQuotientAndRemainder := by
  intro rs rt s hdivisor
  have hpos : 0 < (s.readReg rt).toNat := Nat.pos_of_ne_zero fun h => hdivisor (BitVec.eq_of_toNat_eq h)
  refine ⟨_, exec_divu_eq_udiv hdivisor, ?_, ?_, rfl⟩
  · rw [State.advance_hi, State.advance_lo, State.writeHiLo_hi, State.writeHiLo_lo, BitVec.toNat_udiv, BitVec.toNat_umod]
    exact Nat.div_add_mod' ..
  · rw [State.advance_hi, State.writeHiLo_hi, BitVec.toNat_umod]
    exact Nat.mod_lt _ hpos

/-- Settles O29: the draw writes `HI`, `LO` and the draw counter only. -/
theorem divisionByZeroCompletes : Obligations.DivisionByZeroCompletes :=
  fun _ _ _ hzero => ⟨⟨_, exec_div_zero hzero, rfl⟩, ⟨_, exec_divu_zero hzero, rfl⟩⟩

end Sys2Proof.Machine
end

section
/-! The halfword accesses (42_loadstore.md R92, R93, R95; 20_memory.md R33, R34, R41), and the accesses that stop (R39, R44). -/

namespace Sys2Proof.Machine

/-! ### The bytes of a halfword -/

/-- The value of a joined halfword is the statements' (R33). -/
theorem joinHalf_toNat (big : Bool) (b0 b1 : Byte) : (joinHalf big b0 b1).toNat = Claims.halfValue big b0 b1 := by
  cases big <;> exact halfOf_toNat ..

/-- The signed value of a halfword, from its value. -/
theorem toInt_half (h : Half) : h.toInt = (h.toNat : Int) - (if h.toNat < 2 ^ 15 then 0 else 2 ^ 16) := by
  rw [BitVec.toInt_eq_toNat_cond]
  split <;> split <;> omega

/-- The byte of the low halfword of `v` at distance `k` from its lowest address, in the byte order (R34). -/
def halfByte (big : Bool) (v : Word) (k : Nat) : Byte := v.extractLsb' (if big then 8 * (1 - k) else 8 * k) 8

/-- The bytes that SH stores stand at their distances (R34). -/
theorem splitHalf_getElem (big : Bool) (v : Word) {k : Nat} (hk : k < 2) :
    (splitHalf big (v.extractLsb' 0 16))[k]? = some (halfByte big v k) := by
  interval_cases k <;> cases big <;> simp [splitHalf, halfByte, byteOf, BitVec.extractLsb'_extractLsb'_of_le]

/-- The two bytes of the low halfword give it back (R33, R34). -/
theorem joinHalf_halfByte (big : Bool) (v : Word) : joinHalf big (halfByte big v 0) (halfByte big v 1) = v.extractLsb' 0 16 := by
  have hbytes := halfOf_bytes (v.extractLsb' 0 16)
  unfold byteOf at hbytes
  rw [BitVec.extractLsb'_extractLsb'_of_le (by decide), BitVec.extractLsb'_extractLsb'_of_le (by decide)] at hbytes
  cases big <;> exact hbytes

/-- A stored halfword reads back byte by byte (R34, R41). -/
theorem read_writeBytes_half (m : Memory) (a : Nat) (big : Bool) (v : Word) {k : Nat} (hk : k < 2) :
    (m.writeBytes a (splitHalf big (v.extractLsb' 0 16))).read (a + k) = some (halfByte big v k) := by
  rw [Memory.read_writeBytes, if_pos (by rw [splitHalf_length]; omega), Nat.add_sub_cancel_left]
  exact splitHalf_getElem big v hk

/-! ### Loads -/

/-- A load of two admitted bytes that hold values answers their halfword (R33, R39). -/
theorem loadHalf_of_mayLoad {s : State} {a : Word} {b0 b1 : Byte} (hmay : Claims.mayLoad s a.toNat 2) (h0 : s.mem.read a.toNat = some b0)
    (h1 : s.mem.read (a.toNat + 1) = some b1) : s.loadHalf a = .next (joinHalf s.cfg.bigEndian b0 b1) :=
  loadHalf_next.2 ⟨admitsLoad_iff.2 hmay, b0, b1, h0, h1, rfl⟩

/-- LH of a halfword that the load answers is a register write of its sign extension that advances (R92). -/
theorem exec_lh_of_loadHalf {s : State} {base : RegNo} {imm16 : Half} {h : Half} (heven : (Claims.address s base imm16).toNat % 2 = 0)
    (hload : s.loadHalf (Claims.address s base imm16) = .next h) (rt : RegNo) :
    exec (.lh rt base imm16) s = .next (s.writeReg rt (h.signExtend 32)).advance :=
  exec_next.2 (.inr ⟨(oddAddr_false _).2 heven, h, hload, rfl⟩)

/-- LHU of a halfword that the load answers is a register write of its zero extension that advances (R93). -/
theorem exec_lhu_of_loadHalf {s : State} {base : RegNo} {imm16 : Half} {h : Half} (heven : (Claims.address s base imm16).toNat % 2 = 0)
    (hload : s.loadHalf (Claims.address s base imm16) = .next h) (rt : RegNo) :
    exec (.lhu rt base imm16) s = .next (s.writeReg rt (h.setWidth 32)).advance :=
  exec_next.2 (.inr ⟨(oddAddr_false _).2 heven, h, hload, rfl⟩)

/-- Settles O33: the load answers the halfword, and an extension keeps its signed (LH) or unsigned (LHU) value. -/
theorem halfwordLoadsExtendTheHalfword : Obligations.HalfwordLoadsExtendTheHalfword := by
  intro rt base imm16 s b0 b1 heven hmay h0 h1
  have hload := loadHalf_of_mayLoad hmay h0 h1
  refine ⟨⟨_, _, exec_lh_of_loadHalf heven hload rt, onlyRegister_writeReg_advance s rt _, ?_⟩,
    ⟨_, _, exec_lhu_of_loadHalf heven hload rt, onlyRegister_writeReg_advance s rt _, ?_⟩⟩
  · rw [BitVec.toInt_signExtend_of_le (by decide), toInt_half, joinHalf_toNat]
  · rw [BitVec.toNat_setWidth_of_le (by decide), joinHalf_toNat]

/-- A byte load that is not admitted faults (R39, D9). -/
theorem loadByte_not_admitted {s : State} {a : Word} (h : ¬ Claims.mayLoad s a.toNat 1) : s.loadByte a = .fault .loadNotAdmitted :=
  if_neg (mt admitsLoad_iff.1 h)

/-- A halfword load that is not admitted faults (R39, D9). -/
theorem loadHalf_not_admitted {s : State} {a : Word} (h : ¬ Claims.mayLoad s a.toNat 2) : s.loadHalf a = .fault .loadNotAdmitted :=
  if_neg (mt admitsLoad_iff.1 h)

/-- A byte that holds no value cannot be read (R39, D3). -/
theorem byteAt_unwritten {s : State} {a : Nat} (h : s.mem.read a = none) : s.byteAt a = .fault .readOfUnwrittenMemory := by
  rw [State.byteAt, h]

/-- An admitted load of a byte that holds no value faults (R39, D3). -/
theorem loadByte_unwritten {s : State} {a : Word} (hmay : Claims.mayLoad s a.toNat 1) (h : s.mem.read a.toNat = none) :
    s.loadByte a = .fault .readOfUnwrittenMemory :=
  (if_pos (admitsLoad_iff.2 hmay)).trans (byteAt_unwritten h)

/-- An admitted load of a halfword with a byte that holds no value faults (R39, D3). -/
theorem loadHalf_unwritten {s : State} {a : Word} (hmay : Claims.mayLoad s a.toNat 2)
    (h : s.mem.read a.toNat = none ∨ s.mem.read (a.toNat + 1) = none) : s.loadHalf a = .fault .readOfUnwrittenMemory := by
  rw [State.loadHalf, if_pos (admitsLoad_iff.2 hmay), andThen_fault]
  rcases h0 : s.mem.read a.toNat with _ | b0
  · exact .inl (byteAt_unwritten h0)
  · have h1 : s.mem.read (a.toNat + 1) = none := h.resolve_left (by simp [h0])
    exact .inr ⟨b0, byteAt_next.2 h0, andThen_fault.2 (.inl (byteAt_unwritten h1))⟩

/-- LB and LBU stop as the load stops (R96). -/
theorem exec_byteLoad_fault {s : State} {base : RegNo} {imm16 : Half} {e : Fault}
    (h : s.loadByte (Claims.address s base imm16) = .fault e) (rt : RegNo) :
    exec (.lb rt base imm16) s = .fault e ∧ exec (.lbu rt base imm16) s = .fault e :=
  ⟨andThen_fault.2 (.inl h), andThen_fault.2 (.inl h)⟩

/-- LH and LHU at an even address stop as the load stops (R96). -/
theorem exec_halfLoad_fault {s : State} {base : RegNo} {imm16 : Half} {e : Fault} (heven : (Claims.address s base imm16).toNat % 2 = 0)
    (h : s.loadHalf (Claims.address s base imm16) = .fault e) (rt : RegNo) :
    exec (.lh rt base imm16) s = .fault e ∧ exec (.lhu rt base imm16) s = .fault e := by
  have hnot : ¬ oddAddr (s.effAddr base imm16) = true := Bool.eq_false_iff.1 ((oddAddr_false _).2 heven)
  exact ⟨(if_neg hnot).trans (andThen_fault.2 (.inl h)), (if_neg hnot).trans (andThen_fault.2 (.inl h))⟩

/-- Settles O34: the two tests of a load, admission and then the bytes, are the same for both extensions. -/
theorem loadsOutsideTheMapFault : Obligations.LoadsOutsideTheMapFault := fun rt _ _ _ =>
  ⟨fun hmay => exec_byteLoad_fault (loadByte_not_admitted hmay) rt, fun hmay hnone => exec_byteLoad_fault (loadByte_unwritten hmay hnone) rt,
    fun heven hmay => exec_halfLoad_fault heven (loadHalf_not_admitted hmay) rt,
    fun heven hmay hnone => exec_halfLoad_fault heven (loadHalf_unwritten hmay hnone) rt⟩

/-! ### Stores -/

/-- SH at an even address is a store that advances (R95). -/
theorem exec_sh_of_even {s : State} {base : RegNo} {imm16 : Half} (heven : (Claims.address s base imm16).toNat % 2 = 0) (rt : RegNo) :
    exec (.sh rt base imm16) s =
      andThen (s.store (Claims.address s base imm16) (splitHalf s.cfg.bigEndian ((s.readReg rt).extractLsb' 0 16))) fun t => .next t.advance :=
  if_neg (Bool.eq_false_iff.1 ((oddAddr_false _).2 heven))

/-- Settles O36: SH is one store of the two bytes, which read back, and leaves every other byte. -/
theorem shStoresTheLowHalfword : Obligations.ShStoresTheLowHalfword := by
  intro rt base imm16 s heven hmay
  have hstore := store_of_mayStore (bs := splitHalf s.cfg.bigEndian ((s.readReg rt).extractLsb' 0 16)) (splitHalf_length .. ▸ hmay)
  have hexec := exec_sh_of_even heven rt
  rw [hstore, andThen_of_next] at hexec
  refine ⟨_, hexec, ?low, ?high, fun a h0 h1 => ?others, rfl⟩
  case low => exact read_writeBytes_half s.mem _ s.cfg.bigEndian (s.readReg rt) (k := 0) (by decide)
  case high => exact read_writeBytes_half s.mem _ s.cfg.bigEndian (s.readReg rt) (k := 1) (by decide)
  case others => exact store_read hstore (by rw [splitHalf_length]; omega)

/-- A store outside `DataRegion` that touches no code faults (R39, D9). -/
theorem store_not_admitted {s : State} {a : Word} {bs : List Byte} (hcode : ∀ k < bs.length, s.cfg.inCode (a.toNat + k) = false)
    (hdata : ∃ k < bs.length, s.cfg.inData (a.toNat + k) = false) : s.store a bs = .fault .storeNotAdmitted := by
  have hnot : ¬ s.inDataRegion a.toNat bs.length = true := fun h => by
    obtain ⟨k, hk, hfalse⟩ := hdata
    rw [inDataRegion_iff.1 h k hk] at hfalse
    cases hfalse
  rw [State.store, if_neg (Bool.eq_false_iff.1 (touchesCode_false.2 hcode)), if_neg hnot]

/-- Settles O37: a store tests code before data; SB has one byte, SH at an even address two. -/
theorem storesOutsideDataStop : Obligations.StoresOutsideDataStop := by
  refine fun rt base imm16 s => ⟨fun hcode => ?_, fun hcode hdata => ?_, fun heven hcode => ?_, fun heven hcode hdata => ?_⟩
  · exact andThen_refused.2 (.inl (store_refused.2 ⟨touchesCode_iff.2 ⟨0, Nat.one_pos, hcode⟩, rfl⟩))
  · have one {p : Nat → Prop} (h : p 0) : ∀ k < 1, p k := fun k hk => Nat.lt_one_iff.1 hk ▸ h
    exact andThen_fault.2 (.inl (store_not_admitted (one hcode) ⟨0, Nat.one_pos, hdata⟩))
  · rw [exec_sh_of_even heven, andThen_refused]
    exact .inl (store_refused.2 ⟨touchesCode_iff.2 (splitHalf_length .. ▸ hcode), rfl⟩)
  · rw [exec_sh_of_even heven, andThen_fault]
    exact .inl (store_not_admitted (splitHalf_length .. ▸ hcode) (splitHalf_length .. ▸ hdata))

/-- What SH at an even address leaves: the two bytes, which may be loaded, under the same parameters (R34, R39). -/
theorem stored_of_exec_sh {rt base : RegNo} {imm16 : Half} {s t : State} (heven : (Claims.address s base imm16).toNat % 2 = 0)
    (h : exec (.sh rt base imm16) s = .next t) :
    t.cfg = s.cfg ∧ Claims.mayLoad t (Claims.address s base imm16).toNat 2 ∧
      ∀ k < 2, t.mem.read ((Claims.address s base imm16).toNat + k) = some (halfByte s.cfg.bigEndian (s.readReg rt) k) := by
  rw [exec_sh_of_even heven, andThen_next] at h
  obtain ⟨u, hstore, hadv⟩ := h
  cases hadv
  obtain ⟨-, hdata, rfl⟩ := store_next.1 hstore
  rw [splitHalf_length, inDataRegion_iff] at hdata
  exact ⟨rfl, fun k hk => .inl (hdata k hk), fun k hk => read_writeBytes_half s.mem _ s.cfg.bigEndian (s.readReg rt) hk⟩

/-- Settles O38: both loads are admitted where the store was, and answer the bytes stored. -/
theorem storedHalfwordReadsBack : Obligations.StoredHalfwordReadsBack := by
  intro rt base imm16 s t heven hexec rt' base' imm' haddr hrt'
  obtain ⟨hcfg, hmay, hread⟩ := stored_of_exec_sh heven hexec
  rw [← haddr] at heven hmay hread
  have h0 := hread 0 (by decide)
  have h1 := hread 1 (by decide)
  rw [Nat.add_zero] at h0
  have written (x : Word) : ((t.writeReg rt' x).advance).readReg rt' = x := by
    rw [State.advance_readReg, State.readReg_writeReg, if_pos ⟨rfl, hrt'⟩]
  refine ⟨⟨_, exec_lhu_of_loadHalf heven (loadHalf_of_mayLoad hmay h0 h1) rt', ?half⟩,
    ⟨_, exec_lbu_of_loadByte (loadByte_of_mayLoad (fun k hk => hmay k (by omega)) h0) rt', ?byte⟩⟩
  case half =>
    rw [written, hcfg, joinHalf_halfByte, BitVec.toNat_setWidth_of_le (by decide), BitVec.extractLsb'_toNat, Nat.shiftRight_zero]
  case byte =>
    rw [written, BitVec.toNat_setWidth_of_le (by decide), halfByte, BitVec.extractLsb'_toNat, Nat.shiftRight_eq_div_pow]
    split <;> simp

end Sys2Proof.Machine
end

section
/-! BGEZ and JALR (43_control.md R100, R102 to R104), with and without delay slots, and the instruction in the slot. -/

namespace Sys2Proof.Machine

/-- The target of a branch, computed with integers (R100, log 15). -/
theorem branchTarget_eq (s : State) (imm16 : Half) : s.branchTarget imm16 = BitVec.ofInt 32 (s.pc.toNat + 4 + 4 * imm16.toInt) := by
  have hpc : BitVec.ofInt 32 (s.pc.toNat : Int) = s.pc := by rw [BitVec.ofInt_natCast, BitVec.ofNat_toNat, BitVec.setWidth_eq]
  rw [State.branchTarget, branchOffset_eq, BitVec.ofInt_add, BitVec.ofInt_add, hpc]
  rfl

/-- A jump from outside a delay slot changes `pc` and `npc` only (R16). -/
theorem jumpNow_of_no_slot {s : State} (h : s.inDelay = false) (a : Word) : s.jumpNow a = { s with pc := a, npc := a + 4 } := by
  rw [State.jumpNow, ← h]

/-- A BGEZ that is taken, outside a delay slot, branches (R100). -/
theorem exec_bgez_taken {s : State} (hslot : s.inDelay = false) {rs : RegNo} (h : 0 ≤ (s.readReg rs).toInt) (imm16 : Half) :
    exec (.bgez rs imm16) s = .next (s.branchTo (s.branchTarget imm16)) := by
  have hmsb : ¬ (s.readReg rs).msb = true := by
    rw [BitVec.msb_eq_toInt, decide_eq_true_eq]
    omega
  exact exec_next.2 ⟨hslot, (if_neg hmsb).symm⟩

/-- A BGEZ that is not taken, outside a delay slot, goes on with the next instruction (R100). -/
theorem exec_bgez_not_taken {s : State} (hslot : s.inDelay = false) {rs : RegNo} (h : (s.readReg rs).toInt < 0) (imm16 : Half) :
    exec (.bgez rs imm16) s = .next s.branchNotTaken := by
  have hmsb : (s.readReg rs).msb = true := by rwa [BitVec.msb_eq_toInt, decide_eq_true_eq]
  exact exec_next.2 ⟨hslot, (if_pos hmsb).symm⟩

/-- JALR outside a delay slot writes the link and branches to the old `x[rs]` (R102). -/
theorem exec_jalr {s : State} (hslot : s.inDelay = false) (rd rs : RegNo) :
    exec (.jalr rd rs) s = .next ((s.writeReg rd s.link).branchTo (s.readReg rs)) :=
  exec_next.2 ⟨hslot, rfl⟩

/-- Settles O39: a BGEZ is taken iff its operand is not negative, and a branch is a jump where there are no delay slots. -/
theorem bgezBranchesOnTheSign : Obligations.BgezBranchesOnTheSign := by
  intro rs imm16 s hslot
  rcases lt_or_ge (s.readReg rs).toInt 0 with hneg | hnonneg
  · refine ⟨_, _, exec_bgez_not_taken hslot hneg imm16, rfl, fun h => ?_, fun h => ?_, fun _ => rfl⟩
    · omega
    · omega
  · refine ⟨_, _, exec_bgez_taken hslot hnonneg imm16, rfl, fun _ hslots => ?_, fun _ hslots => ?_, fun h => ?_⟩
    · rw [← branchTarget_eq, branchTo_of_slots hslots]
    · rw [← branchTarget_eq, branchTo_of_no_slots hslots, jumpNow_of_no_slot hslot]
    · omega

/-- A write of a general register changes the register file only (R10). -/
theorem writeReg_eq_with_regs (s : State) (r : RegNo) (v : Word) : s.writeReg r v = { s with regs := (s.writeReg r v).regs } := by
  unfold State.writeReg
  split <;> rfl

/-- Settles O40: the link is a register write, and the branch leaves the register file. -/
theorem jalrJumpsAndLinks : Obligations.JalrJumpsAndLinks := by
  intro rd rs s hslot
  refine ⟨_, exec_jalr hslot rd rs, ?link, fun q hq => ?others, fun hslots => ?slots, fun hslots => ?noSlots⟩
  case link =>
    rw [State.branchTo_readReg, State.readReg_writeReg]
    by_cases hrd : rd = 0
    · subst hrd
      rfl
    · rw [if_pos ⟨rfl, hrd⟩, if_neg hrd]
      rfl
  case others => rw [State.branchTo_readReg, State.readReg_writeReg, if_neg fun h => hq h.1]
  case slots =>
    rw [State.branchTo_regs, writeReg_eq_with_regs]
    exact branchTo_of_slots (s := { s with regs := (s.writeReg rd s.link).regs }) hslots _
  case noSlots =>
    rw [State.branchTo_regs, writeReg_eq_with_regs]
    exact (branchTo_of_no_slots (s := { s with regs := (s.writeReg rd s.link).regs }) hslots _).trans
      (jumpNow_of_no_slot (s := { s with regs := (s.writeReg rd s.link).regs }) hslot _)

/-- An instruction that completes in a delay slot goes on at `npc`, outside one: control transfers and exceptions are refused there
(R15 steps 6 and 7). -/
theorem completes_in_slot {i : Instr} {s t : State} (h : Completes s i t) (hslot : s.inDelay = true) : t.pc = s.npc ∧ t.inDelay = false := by
  cases h with
  | trap _ hno | bgez _ _ hno | jalr _ _ hno | eret hno => cases hslot.symm.trans hno
  | sb _ _ _ hstore | sh _ _ _ _ hstore => rw [store_frame hstore]; exact ⟨rfl, rfl⟩
  | register | mtc0 => simp
  | mulDiv | mthi | mtlo | teq => exact ⟨rfl, rfl⟩

/-- Settles O41: BGEZ and JALR leave the slot's address in `pc` and the target in `npc`, where the instruction in the slot goes on. -/
theorem theDelaySlotRunsOnceBeforeTheTarget : Obligations.TheDelaySlotRunsOnceBeforeTheTarget := by
  intro s t u hslots hslot hnpc hstep
  obtain ⟨i, hcompletes⟩ := completes_of_step hstep
  have inSlot := completes_in_slot hcompletes
  refine ⟨fun rs imm16 hexec => ?bgez, fun rd rs hexec => ?jalr⟩
  case bgez =>
    rcases lt_or_ge (s.readReg rs).toInt 0 with hneg | hnonneg
    · cases (exec_bgez_not_taken hslot hneg imm16).symm.trans hexec
      obtain ⟨hpc, hno⟩ := inSlot hslots
      refine ⟨hnpc, hslots, hno, ?_⟩
      rw [hpc, if_neg (by omega), State.branchNotTaken_npc, hnpc, BitVec.add_assoc]
      rfl
    · cases (exec_bgez_taken hslot hnonneg imm16).symm.trans hexec
      rw [branchTo_of_slots hslots] at inSlot ⊢
      obtain ⟨hpc, hno⟩ := inSlot rfl
      refine ⟨hnpc, rfl, hno, ?_⟩
      rw [hpc, if_pos hnonneg, ← branchTarget_eq]
  case jalr =>
    cases (exec_jalr hslot rd rs).symm.trans hexec
    obtain ⟨hpc, hno⟩ := inSlot (by simpa using hslots)
    refine ⟨?_, by simpa using hslots, hno, ?_⟩
    · simp [hslots, hnpc]
    · simp [hpc, hslots]

end Sys2Proof.Machine
end

section
/-! Exceptions and CP0 (44_trap.md, 45_cp0.md, 60_exceptions.md; 70_reset_and_hazards.md R177): the instructions that raise, ERET, MFC0 and MTC0, and
what the instruction after them sees. -/

namespace Sys2Proof.Machine

/-! ### The instructions that raise -/

/-- Settles O43: the three raise, and an instruction that raises takes trap entry. -/
theorem breakSyscallAndTeqTrap : Obligations.BreakSyscallAndTeqTrap := fun _ hslot hexl herl =>
  ⟨entered_of_raised rfl hslot hexl herl, entered_of_raised rfl hslot hexl herl,
    fun _ _ heq => entered_of_raised (if_pos heq) hslot hexl herl⟩

/-- Settles O44: the TEQ raises nothing. -/
theorem teqOnDifferentOperandsOnlyAdvances : Obligations.TeqOnDifferentOperandsOnlyAdvances := fun _ _ _ => exec_teq_of_ne

/-- Settles O45: the three raise at an odd address, and an instruction that raises takes trap entry. -/
theorem oddHalfwordAddressesTrap : Obligations.OddHalfwordAddressesTrap := fun _ _ _ _ hodd hslot hexl herl =>
  ⟨entered_of_raised (if_pos hodd) hslot hexl herl, entered_of_raised (if_pos hodd) hslot hexl herl,
    entered_of_raised (if_pos hodd) hslot hexl herl⟩

/-! ### ERET -/

/-- ERET outside a delay slot returns from the exception (R120). -/
theorem exec_eret {s : State} (hslot : s.inDelay = false) : exec .eret s = .next s.exceptionReturn := exec_next.2 ⟨hslot, rfl⟩

/-- The bits that clearing ERL keeps. -/
theorem clearErl_eq (v : Word) : clearErl v = v &&& 0xFFFFFFFB := rfl

/-- The bits that clearing EXL keeps. -/
theorem clearExl_eq (v : Word) : clearExl v = v &&& 0xFFFFFFFD := rfl

/-- Status after the return, as the word of bits kept (R120). -/
theorem exceptionReturn_status_eq (s : State) :
    s.exceptionReturn.status = s.status &&& (if s.status.getLsbD 2 then 0xFFFFFFFB else 0xFFFFFFFD) := by
  rw [State.exceptionReturn_status, State.erl, apply_ite (s.status &&& ·), clearErl_eq, clearExl_eq]

/-- With ERL 1 the return goes to `ErrorEPC` and clears ERL (R120). -/
theorem exceptionReturn_of_erl {s : State} (h : s.erl = true) :
    s.exceptionReturn = State.jumpNow { s with status := clearErl s.status, llbit := false } s.errorEpc :=
  if_pos h

/-- With ERL 0 the return goes to `EPC` and clears EXL (R120). -/
theorem exceptionReturn_of_no_erl {s : State} (h : s.erl = false) :
    s.exceptionReturn = State.jumpNow { s with status := clearExl s.status, llbit := false } s.epc :=
  if_neg (Bool.eq_false_iff.1 h)

/-- Settles O46: ERL chooses the branch of the return. -/
theorem eretReturnsToTheSavedAddress : Obligations.EretReturnsToTheSavedAddress := by
  refine fun s hslot => ⟨fun herl => ?_, fun herl => ?_⟩ <;> rw [exec_eret hslot]
  · rw [exceptionReturn_of_erl herl, clearErl_eq, jumpNow_of_no_slot]
    exact hslot
  · rw [exceptionReturn_of_no_erl herl, clearExl_eq, jumpNow_of_no_slot]
    exact hslot

/-- An instruction that raises and completes took trap entry, outside a delay slot with EXL and ERL 0. -/
theorem raised_next {i : Instr} {e : Exc} {s t : State} (h : Claims.raised s i = some e) (hexec : exec i s = .next t) : Raised s t e :=
  raise_next.1 (exec_of_raised h ▸ hexec)

/-- Trap entry leaves ERL (R145). -/
theorem trapEntry_erl (s : State) (e : Exc) : (s.trapEntry e).erl = s.erl := by
  rw [State.erl, State.trapEntry_status, setExl_bit _ (by decide)]
  exact Bool.or_false _

/-- Settles O47: ERL is 0 and EXL was 0 before, so ERET goes to EPC and gives Status back. -/
theorem exceptionThenEretResumesAfterTheInstruction : Obligations.ExceptionThenEretResumesAfterTheInstruction := by
  intro i e s t hraised hexec
  obtain ⟨hslot, hexl, herl, rfl⟩ := raised_next hraised hexec
  have hreturn := exceptionReturn_of_no_erl ((trapEntry_erl s e).trans herl)
  have hnpc : s.pc + 4 + 4 = s.pc + 8 := BitVec.add_assoc ..
  refine ⟨_, exec_eret rfl, ?_⟩
  rw [hreturn, State.trapEntry_status, clearExl_setExl hexl, State.jumpNow, State.trapEntry_epc, hnpc, ← hslot]
  rfl

/-! ### MFC0 and MTC0 -/

/-- MFC0 of a CP0 register changes its destination only, which gets the register. -/
theorem mfc0_reads {rd : RegNo} {c : Cp0} (hc : cp0Of rd = some c) (rt : RegNo) (s : State) :
    ∃ t, exec (.mfc0 rt rd) s = .next t ∧ Claims.onlyRegister s t rt (s.readCp0 c) :=
  ⟨_, exec_mfc0_of_some hc rt s, onlyRegister_writeReg_advance s rt _⟩

/-- Settles O48: each number names its register. -/
theorem mfc0ReadsTheFourRegisters : Obligations.Mfc0ReadsTheFourRegisters := fun rt s =>
  ⟨mfc0_reads (c := .status) rfl rt s, mfc0_reads (c := .cause) rfl rt s, mfc0_reads (c := .epc) rfl rt s,
    mfc0_reads (c := .errorEpc) rfl rt s⟩

/-- Settles O49: each number names its register. -/
theorem mtc0WritesTheFourRegisters : Obligations.Mtc0WritesTheFourRegisters := fun rt s =>
  ⟨exec_mtc0_of_some (c := .status) rfl rt s, exec_mtc0_of_some (c := .cause) rfl rt s, exec_mtc0_of_some (c := .epc) rfl rt s,
    exec_mtc0_of_some (c := .errorEpc) rfl rt s⟩

/-- A number names no CP0 register iff it is none of the four (R18). -/
theorem cp0Of_eq_none {rd : RegNo} : cp0Of rd = none ↔ rd ≠ 12 ∧ rd ≠ 13 ∧ rd ≠ 14 ∧ rd ≠ 30 := by
  unfold cp0Of
  split_ifs <;> simp_all

/-- Settles O50: a number that names a register completes, any other is refused. -/
theorem unknownCp0RegistersAreRefused : Obligations.UnknownCp0RegistersAreRefused := by
  intro rt rd s
  rw [← cp0Of_eq_none]
  rcases hc : cp0Of rd with _ | c
  · simp [exec_mfc0_of_none hc, exec_mtc0_of_none hc]
  · simp [exec_mfc0_of_some hc, exec_mtc0_of_some hc]

/-! ### The next instruction -/

/-- MFC0 into a general register other than `x[0]` leaves the CP0 register there. -/
theorem mfc0_readReg {rd : RegNo} {c : Cp0} (hc : cp0Of rd = some c) {rt : RegNo} (hrt : rt ≠ 0) (s : State) :
    ∃ t, exec (.mfc0 rt rd) s = .next t ∧ t.readReg rt = s.readCp0 c := by
  obtain ⟨t, hexec, hread, -⟩ := mfc0_reads hc rt s
  exact ⟨t, hexec, hread.trans (if_neg hrt)⟩

/-- Settles O51: `c` is the register written, and the fields the next instruction looks at are those of the state after MTC0. -/
theorem mtc0IsSeenByTheNextInstruction : Obligations.Mtc0IsSeenByTheNextInstruction := by
  intro rt rd s t status epc errorEpc hexec hstatus hepc herrorEpc
  obtain ⟨c, hc, rfl⟩ := exec_next.1 hexec
  obtain rfl := cp0Of_eq_some.1 hc
  have hfields : status = (s.writeCp0 c (s.readReg rt)).status ∧ epc = (s.writeCp0 c (s.readReg rt)).epc ∧
      errorEpc = (s.writeCp0 c (s.readReg rt)).errorEpc := by
    subst hstatus hepc herrorEpc
    cases c <;> exact ⟨rfl, rfl, rfl⟩
  obtain ⟨rfl, rfl, rfl⟩ := hfields
  refine ⟨fun rt' => ?mfc0, ⟨_, exec_eret rfl, ?address, ?cleared⟩, fun i e he => ⟨nested_of_raised he rfl, entered_of_raised he rfl⟩⟩
  case mfc0 =>
    obtain ⟨u, hu, hread, -⟩ := mfc0_reads hc rt' (s.writeCp0 c (s.readReg rt)).advance
    refine ⟨u, hu, hread.trans ?_⟩
    have hwritten : (s.writeCp0 c (s.readReg rt)).advance.readCp0 c = (s.writeCp0 c (s.readReg rt)).readCp0 c := by cases c <;> rfl
    rw [hwritten, State.readCp0_writeCp0, if_pos rfl]
  case address => exact State.exceptionReturn_pc _
  case cleared => exact exceptionReturn_status_eq _

/-- Settles O53: trap entry leaves EXL 1; ERET leaves ERL 0, and EXL 1 only if both were 1. -/
theorem trapEntryAndEretAreSeenByTheNextInstruction : Obligations.TrapEntryAndEretAreSeenByTheNextInstruction := by
  refine ⟨fun i e s t hraised hexec => ?trap, fun s t hexec => ?eret⟩
  case trap =>
    obtain ⟨-, -, -, rfl⟩ := raised_next hraised hexec
    obtain ⟨hcode, -, hexl, -⟩ := entered_trapEntry s e
    refine ⟨fun rt hrt => ⟨mfc0_readReg (rd := 14) (c := .epc) rfl hrt _, ?_, ?_⟩, fun j f hf => nested_of_raised hf rfl (.inl hexl)⟩
    · obtain ⟨u, hu, hread⟩ := mfc0_readReg (rd := 13) (c := .cause) rfl hrt (s.trapEntry e)
      exact ⟨u, hu, hread ▸ hcode⟩
    · obtain ⟨u, hu, hread⟩ := mfc0_readReg (rd := 12) (c := .status) rfl hrt (s.trapEntry e)
      exact ⟨u, hu, hread ▸ hexl⟩
  case eret =>
    obtain ⟨hslot, rfl⟩ := exec_next.1 hexec
    refine ⟨fun rt hrt => ?_, fun j f hf => ⟨fun hboth => ?_, fun hnot => ?_⟩⟩
    · obtain ⟨u, hu, hread⟩ := mfc0_readReg (rd := 12) (c := .status) rfl hrt s.exceptionReturn
      exact ⟨u, hu, hread.trans (exceptionReturn_status_eq s)⟩
    · have hexl : s.exceptionReturn.exl = true := (exceptionReturn_exl s).trans (Bool.and_eq_true_iff.2 hboth)
      exact nested_of_raised hf (State.exceptionReturn_inDelay s) (.inl hexl)
    · have hexl : s.exceptionReturn.exl = false :=
        (exceptionReturn_exl s).trans (Bool.eq_false_iff.2 (mt Bool.and_eq_true_iff.1 hnot))
      exact entered_of_raised hf (State.exceptionReturn_inDelay s) hexl (exceptionReturn_erl s)

end Sys2Proof.Machine
end
